-- ==== Sys2Proof/Word.lean ====
section
/-! DEFINITION. The datapath byte, the instruction word, the opcode code, and the signed reading of a byte
(spec/00_scope.md R6, R7). -/

namespace Sys2Proof

/-- A datapath value `u8` (R6): register contents, the latch, an immediate. -/
abbrev Byte := BitVec 8

/-- An instruction word as the `instr` port carries it (R29). 17 lines are what `Widen6` needs (R52); under `Truncate5`
the word is 16 bits wide (R49) and line 16 does not exist, which `wordFits` of WellFormed.lean says (log 5). -/
abbrev Word := BitVec 17

/-- The fixed integer code of an operation (R47): the source's codes need 6 bits (R51), as does the opcode field of
`Widen6` (R52) (log 8). -/
abbrev Code := BitVec 6

/-- The signed reading of a byte: `v - 256 * v[7]` (R7). -/
def s8 (v : Byte) : Int := (v.toNat : Int) - 256 * (v.msb.toNat : Int)

end Sys2Proof
end

