-- ==== Sys2Proof/Config.lean ====
section
/-! DEFINITION. The implementation parameters of spec/00_scope.md R5 that the spec leaves OPEN, with the spec's
defaults, and the free values they call for. -/

namespace Sys2Proof

/-- ENC_MODE (R5, R51, R52, D4): the width of the opcode field. -/
inductive EncMode where
  /-- 16-bit word, 5-bit field that holds the code mod 32 (R49, R51). The default. -/
  | truncate5
  /-- 17-bit word, 6-bit field that holds the code unchanged (R52). -/
  | widen6
  deriving DecidableEq, Repr

/-- What a user may ask the decoder for. R61: the third reading, in which a code bit bleeds into the register field, is
no mode, and "a model must refuse any request to decode legacy bleed artifacts" (log 6). -/
inductive EncRequest where
  | mode (m : EncMode)
  | legacyBleed
  deriving DecidableEq, Repr

/-- IMUL_MODE (R5, R107, R108, D9). -/
inductive ImulMode where
  /-- The default (R107). -/
  | signBitOr
  /-- The alternative (R108). -/
  | twosNegate
  deriving DecidableEq, Repr

/-- SHIFT_GE8 (R5, R115, D10): the result of a shift by 8 or more. -/
inductive ShiftGe8 where
  /-- The result is 0. The default, and this hardware's policy. -/
  | zero
  /-- The spec's value `Opaque`: an uninterpreted function of (wv, n), for soundness against the original software. -/
  | uninterpreted
  deriving DecidableEq, Repr

/-- OPCODE_MAP (R5, R47, D3): the integer code of each operation. -/
structure OpcodeMap where
  mov : Code
  add : Code
  sub : Code
  xor : Code
  shl : Code
  shr : Code
  mul : Code
  imul : Code
  and : Code
  or : Code
  out : Code
  neg : Code
  not : Code
  deriving DecidableEq, Repr

/-- The codes of R47: XOR, SHL and SHR from the source, the other ten by D3. -/
def OpcodeMap.default : OpcodeMap :=
  { mov := 0, add := 1, sub := 2, xor := 35, shl := 36, shr := 37, mul := 6, imul := 7, and := 8, or := 9,
    out := 10, neg := 11, not := 12 }

/-- The build-time parameters of the step relation (R21, R27). -/
structure Params where
  enc : EncRequest
  map : OpcodeMap
  imul : ImulMode
  shiftGe8 : ShiftGe8
  deriving DecidableEq, Repr

/-- The spec's default for each OPEN parameter (R5). -/
def Params.default : Params :=
  { enc := .mode .truncate5, map := .default, imul := .signBitOr, shiftGe8 := .zero }

/-- WORD_WIDTH (R5): 16 under `Truncate5`, 17 under `Widen6`. -/
def EncMode.wordWidth : EncMode → Nat
  | .truncate5 => 16
  | .widen6 => 17

/-- LITERAL_OVERFLOW (R5, R73, D20): what the assembler does with a literal magnitude above 255. -/
inductive LiteralOverflow where
  /-- A SyntaxError. The default. -/
  | reject
  /-- Any other policy: the literal is accepted and its byte is a free value (log 13). -/
  | accept
  deriving DecidableEq, Repr

/-- LOADER_BYTE_ORDER (R5, R38, D13): never read by the block. -/
inductive ByteOrder where
  | leastSignificantFirst
  | mostSignificantFirst
  deriving DecidableEq, Repr

/-- A letter case left to a renderer: MNEMONIC_CASE (R5, R64) and the case of a trace's hex digits (R94). -/
inductive LetterCase where
  | lower
  | upper
  deriving DecidableEq, Repr

/-- TRACE_SEPARATORS and the letter cases of a trace line (R5, R94, D19): the renderer's, not the block's (log 17). -/
structure TraceStyle where
  mnemonicCase : LetterCase
  hexCase : LetterCase
  /-- Between the fields of the line. -/
  fieldSeparator : List Char
  /-- Between the mnemonic and the destination. -/
  mnemonicSeparator : List Char
  /-- Between the destination and the operand. -/
  operandSeparator : List Char
  deriving DecidableEq, Repr

/-- FREE VALUE (R115, I2, log 12): SHL of `wv` by `n ≥ 8` under `SHIFT_GE8 = Opaque`. No proof can use a value of it. -/
opaque Config.shlGe8 (wv n : Byte) : Byte

/-- FREE VALUE (R115, I2, log 12): SHR of `wv` by `n ≥ 8` under `SHIFT_GE8 = Opaque`. -/
opaque Config.shrGe8 (wv n : Byte) : Byte

/-- FREE VALUE (R73, I11, log 13): the byte of a literal whose magnitude `m` is above 255, under a LITERAL_OVERFLOW
other than `Reject`; `minus` says whether the literal has a minus sign. -/
opaque Config.overflowImmediate (minus : Bool) (m : Nat) : Byte

end Sys2Proof
end

