-- ==== Sys2Proof/Syntax.lean ====
section
/-! DEFINITION. Registers, operands, the 13 operations, the instruction record of R78, and the instructions: one
constructor per row of spec/opcode_table.json, in the table's order. -/

namespace Sys2Proof

/-- The four registers (R14). -/
inductive Reg where
  | a
  | b
  | c
  | d
  deriving DecidableEq, Repr

/-- The operand of a binary instruction: "a tagged union — either an immediate 8-bit unsigned value, or a register
reference" (R78). -/
inductive Operand where
  | imm (n : Byte)
  | reg (rs : Reg)
  deriving DecidableEq, Repr

/-- The closed set of 13 operations (R47). -/
inductive Operation where
  | mov
  | add
  | sub
  | xor
  | shl
  | shr
  | mul
  | imul
  | and
  | or
  | out
  | neg
  | not
  deriving DecidableEq, Repr

inductive Arity where
  | unary
  | binary
  deriving DecidableEq, Repr

/-- "A pure function of opcode identity, never stored separately" (R48). -/
def Operation.arity : Operation → Arity
  | .out | .neg | .not => .unary
  | .mov | .add | .sub | .xor | .shl | .shr | .mul | .imul | .and | .or => .binary

/-- The operations, in the order of the opcode table. -/
def Operation.all : List Operation :=
  [.mov, .add, .sub, .xor, .shl, .shr, .mul, .imul, .and, .or, .out, .neg, .not]

/-- The source's Instruction record `(op, rd, operand)` (R78), as the parser emits it. `none` is `NoOperand`.
Nothing here ties the operand to the arity: `InstrRecord.wf` of WellFormed.lean does. -/
structure InstrRecord where
  op : Operation
  rd : Reg
  operand : Option Operand
  deriving DecidableEq, Repr

/-- The decoded instruction (R78), with the arity built in. -/
inductive Instr where
  | mov (rd : Reg) (src : Operand)
  | add (rd : Reg) (src : Operand)
  | sub (rd : Reg) (src : Operand)
  | xor (rd : Reg) (src : Operand)
  | shl (rd : Reg) (src : Operand)
  | shr (rd : Reg) (src : Operand)
  | mul (rd : Reg) (src : Operand)
  | imul (rd : Reg) (src : Operand)
  | and (rd : Reg) (src : Operand)
  | or (rd : Reg) (src : Operand)
  | out (rd : Reg)
  | neg (rd : Reg)
  | not (rd : Reg)
  deriving DecidableEq, Repr

/-- The record `(op, rd, operand)` of an instruction (R78). -/
def Instr.record : Instr → InstrRecord
  | .mov rd src => ⟨.mov, rd, some src⟩
  | .add rd src => ⟨.add, rd, some src⟩
  | .sub rd src => ⟨.sub, rd, some src⟩
  | .xor rd src => ⟨.xor, rd, some src⟩
  | .shl rd src => ⟨.shl, rd, some src⟩
  | .shr rd src => ⟨.shr, rd, some src⟩
  | .mul rd src => ⟨.mul, rd, some src⟩
  | .imul rd src => ⟨.imul, rd, some src⟩
  | .and rd src => ⟨.and, rd, some src⟩
  | .or rd src => ⟨.or, rd, some src⟩
  | .out rd => ⟨.out, rd, none⟩
  | .neg rd => ⟨.neg, rd, none⟩
  | .not rd => ⟨.not, rd, none⟩

/-- The instruction of a record; none where the operand does not match the arity. -/
def InstrRecord.toInstr : InstrRecord → Option Instr
  | ⟨.mov, rd, some src⟩ => some (.mov rd src)
  | ⟨.add, rd, some src⟩ => some (.add rd src)
  | ⟨.sub, rd, some src⟩ => some (.sub rd src)
  | ⟨.xor, rd, some src⟩ => some (.xor rd src)
  | ⟨.shl, rd, some src⟩ => some (.shl rd src)
  | ⟨.shr, rd, some src⟩ => some (.shr rd src)
  | ⟨.mul, rd, some src⟩ => some (.mul rd src)
  | ⟨.imul, rd, some src⟩ => some (.imul rd src)
  | ⟨.and, rd, some src⟩ => some (.and rd src)
  | ⟨.or, rd, some src⟩ => some (.or rd src)
  | ⟨.out, rd, none⟩ => some (.out rd)
  | ⟨.neg, rd, none⟩ => some (.neg rd)
  | ⟨.not, rd, none⟩ => some (.not rd)
  | ⟨_, _, _⟩ => none

/-- The operation of an instruction. -/
def Instr.op (i : Instr) : Operation := i.record.op

/-- The destination register of an instruction. -/
def Instr.rd (i : Instr) : Reg := i.record.rd

/-- The operand of an instruction; none for a unary one. -/
def Instr.operand (i : Instr) : Option Operand := i.record.operand

end Sys2Proof
end

