-- ==== Sys2Proof/WellFormed.lean ====
section
/-! DEFINITION. When an instruction record is well formed, and when a word fits the port. A decoded `Instr` is well
formed by its type (`Laws.RecordRoundTrip`, in Laws/PerInstr.lean): the record of R78 is the form that can be wrong. -/

namespace Sys2Proof

/-- The operand is present exactly for a BINARY operation (R48, R68, R78). -/
def InstrRecord.wf (r : InstrRecord) : Bool :=
  match r.op.arity with
  | .unary => r.operand.isNone
  | .binary => r.operand.isSome

/-- An instruction is well formed when its record is. -/
def Instr.wf (i : Instr) : Bool := i.record.wf

/-- The word fits WORD_WIDTH (R5, R77): under `Truncate5` it has no bit 16. -/
def wordFits (m : EncMode) (w : Word) : Bool := decide (w.toNat < 2 ^ m.wordWidth)

end Sys2Proof
end

