-- ==== Sys2Proof/Decode.lean ====
section
/-! DEFINITION. The decoder (spec/30_encoding.md R57), total on every word and rejecting by name; the encoder (R50),
from the same field table (R49, R52); and `decodeTableWord`, the decoder on a word of spec/opcode_table.json. -/

namespace Sys2Proof

/-- `w[hi:lo]`, "the unsigned number made of bits hi down to lo" (R6). -/
def bits (w : Word) (hi lo : Nat) : Nat := w.toNat / 2 ^ lo % 2 ^ (hi + 1 - lo)

/-- The 2-bit code of a register: A=0, B=1, C=2, D=3 (R15, D2). -/
def Reg.code : Reg → Nat
  | .a => 0
  | .b => 1
  | .c => 2
  | .d => 3

/-- The register of a 2-bit code (R15). -/
def Reg.ofCode (n : Nat) : Reg :=
  match n % 4 with
  | 0 => .a
  | 1 => .b
  | 2 => .c
  | _ => .d

/-- OPCODE_MAP as a function (R47). -/
def OpcodeMap.code (map : OpcodeMap) : Operation → Code
  | .mov => map.mov
  | .add => map.add
  | .sub => map.sub
  | .xor => map.xor
  | .shl => map.shl
  | .shr => map.shr
  | .mul => map.mul
  | .imul => map.imul
  | .and => map.and
  | .or => map.or
  | .out => map.out
  | .neg => map.neg
  | .not => map.not

/-- What the opcode field holds for an operation: the code mod 32 under `Truncate5` (R51), the code unchanged under
`Widen6` (R52). -/
def fieldCode (m : EncMode) (map : OpcodeMap) (op : Operation) : Nat :=
  match m with
  | .truncate5 => (map.code op).toNat % 32
  | .widen6 => (map.code op).toNat

/-- The opcode field of a word: `w[15:11]` or `w[16:11]` (R49, R52, R57). -/
def opField (m : EncMode) (w : Word) : Nat :=
  match m with
  | .truncate5 => bits w 15 11
  | .widen6 => bits w 16 11

/-- The destination field `w[10:9]` (R49). -/
def rdField (w : Word) : Reg := .ofCode (bits w 10 9)

/-- The operand of a binary word: `w[8]` = 1 is an immediate `w[7:0]` (R53, R54), 0 a register `w[1:0]`, with `w[7:2]`
ignored (R55). -/
def operandField (w : Word) : Operand :=
  if bits w 8 8 = 1 then .imm (BitVec.ofNat 8 (bits w 7 0)) else .reg (.ofCode (bits w 1 0))

/-- The operations whose field code is `F`: the table FIELD5 or FIELD6 of R57. -/
def operationsAt (m : EncMode) (map : OpcodeMap) (F : Nat) : List Operation :=
  Operation.all.filter (fun op => fieldCode m map op == F)

/-- No two operations share a field code, so that every word has one reading (R51). -/
def codesDistinct (m : EncMode) (map : OpcodeMap) : Bool :=
  decide (Operation.all.map (fieldCode m map)).Nodup

/-- The instruction of an operation and the two fields; a unary operation takes no operand (R56, R57). -/
def instrOf (op : Operation) (rd : Reg) (src : Operand) : Instr :=
  match op with
  | .mov => .mov rd src
  | .add => .add rd src
  | .sub => .sub rd src
  | .xor => .xor rd src
  | .shl => .shl rd src
  | .shr => .shr rd src
  | .mul => .mul rd src
  | .imul => .imul rd src
  | .and => .and rd src
  | .or => .or rd src
  | .out => .out rd
  | .neg => .neg rd
  | .not => .not rd

/-- Why the model refuses to decode a word at all. Each is about the request, never about an instruction. -/
inductive DecodeReject where
  /-- ENC_MODE asks for the bleed reading (R61). -/
  | legacyBleed
  /-- A word that does not fit WORD_WIDTH cannot stand on the port (R29, R77). -/
  | wordTooWide
  /-- The supplied OPCODE_MAP gives two operations the field code of this word (D3). -/
  | opcodeMapAmbiguous
  deriving DecidableEq, Repr

/-- The decoder's answer (R57). -/
inductive Decoded where
  | instr (i : Instr)
  | illegal
  | refused (why : DecodeReject)
  deriving DecidableEq, Repr

/-- The decoder of R57 under one ENC_MODE. -/
def decodeMode (m : EncMode) (map : OpcodeMap) (w : Word) : Decoded :=
  if wordFits m w then
    match operationsAt m map (opField m w) with
    | [] => .illegal
    | [op] => .instr (instrOf op (rdField w) (operandField w))
    | _ :: _ :: _ => .refused .opcodeMapAmbiguous
  else .refused .wordTooWide

/-- The decoder (R57, R61). -/
def decode (p : Params) (w : Word) : Decoded :=
  match p.enc with
  | .mode m => decodeMode m p.map w
  | .legacyBleed => .refused .legacyBleed

/-- The operand encoding `i*256 + v` (R50): `(1, n)` for an immediate, `(0, rs)` for a register, `(0, 0)` for none. -/
def operandBits : Option Operand → Nat
  | none => 0
  | some (.imm n) => 256 + n.toNat
  | some (.reg rs) => rs.code

/-- The encoder of R50: `F*2048 + rd*512 + i*256 + v`. -/
def encode (m : EncMode) (map : OpcodeMap) (i : Instr) : Word :=
  BitVec.ofNat 17 (fieldCode m map i.op * 2048 + i.rd.code * 512 + operandBits i.operand)

/-- The instruction the decoder reads, under the default parameters, from an instruction whose bits are `w`; none where
it refuses or finds the word illegal. The block takes whole words, so no byte order enters (R38). -/
def decodeTableWord (nbits w : Nat) : Option Instr :=
  if w % 2 ^ nbits < 2 ^ 17 then
    match decode .default (BitVec.ofNat 17 (w % 2 ^ nbits)) with
    | .instr i => some i
    | .illegal => none
    | .refused _ => none
  else none

end Sys2Proof
end

