-- ==== Sys2Proof/Machine/State.lean ====
section
/-! DEFINITION. The state of the machine (spec/10_state.md R27, R29), the reasons a step can stop, and the state after
reset (R28). -/

namespace Sys2Proof.Machine

/-- The register file: the four registers A to D, 8 bits each (R14). -/
structure RegFile where
  a : Byte
  b : Byte
  c : Byte
  d : Byte
  deriving DecidableEq, Repr

/-- One sample of the block's input ports (R29). -/
structure PortsIn where
  rst : Bool
  instrValid : Bool
  instr : Word
  deriving DecidableEq, Repr

/-- One trace record (R92), fields in the spec's order. -/
structure TraceRecord where
  cycle : Nat
  instr : Instr
  word : Word
  x : RegFile
  latch : Byte
  deriving DecidableEq, Repr

/-- The block's one exception (R118). Raised by a step that meets an illegal word: safe, since no other state changes.
The spec gives its whole effect, so the step answers a NEXT state that carries it in `State.raised` beside the sticky
bit; the outcome `.fault` is answered by nothing in this model (log 9). -/
inductive Fault where
  /-- The illegal word and the program index it was met at: "the fault carries (w, pc)" (R118). -/
  | illegalInstruction (w : Word) (pc : Nat)
  deriving DecidableEq, Repr

/-- Why the model gives a step no meaning. -/
inductive Refusal where
  /-- An instruction without a meaning yet, raised by an arm of `exec`; safe. No arm raises it now. -/
  | notModelled (mnemonic : String)
  /-- The word cannot be decoded under the requested parameters, raised by the step; safe: the spec demands the refusal
  (R61) or no such word or map belongs to this hardware (R77, D3). -/
  | undecodable (why : DecodeReject)
  deriving DecidableEq, Repr

/-- The machine. The first five fields are the spec's State record (R27); the next two are the outputs of the latest
step that are no view of those five (R29); the last four are what the step relation takes as a parameter or an input
(R27, R30, R34, R96), held here because the step has no other argument (log 1, 2, 3, 11). -/
structure State where
  /-- The register file `x` (R14). -/
  x : RegFile
  /-- The output latch (R18). -/
  latch : Byte
  /-- The cycle counter (R19). -/
  cycles : Nat
  /-- The program index (R23). -/
  pc : Nat
  /-- The sticky fault bit (R22). -/
  fault : Bool
  /-- The exception raised in the latest step; port `illegal` shows whether there is one (R29, R118). -/
  raised : Option Fault
  /-- The trace record emitted in the latest step: port `trace` (R29, R92). -/
  traceOut : Option TraceRecord
  /-- The program P the host presents (R34, R36). -/
  program : List Word
  /-- Explicit port samples for the coming steps, the next one first; when there is none, the host presents `P[pc]`. -/
  inputs : List PortsIn
  /-- Whether tracing is enabled (R96). -/
  tracing : Bool
  /-- The build-time parameters (R5, R21). -/
  params : Params
  deriving DecidableEq, Repr

/-- All registers 0x00 (R28). -/
def RegFile.zero : RegFile := { a := 0, b := 0, c := 0, d := 0 }

/-- The machine right after reset (R28, R130), with no program loaded and the default parameters. -/
def State.reset : State :=
  { x := .zero, latch := 0, cycles := 0, pc := 0, fault := false, raised := none, traceOut := none,
    program := [], inputs := [], tracing := true, params := .default }

end Sys2Proof.Machine
end

