-- ==== Sys2Proof/Machine/Ops.lean ====
section
/-! DEFINITION. The named operations: register access, the end of an instruction, taking the exception, reset, the
sampling of the ports, the trace record, and the output ports. -/

namespace Sys2Proof.Machine

/-- The register `r` of a register file. -/
def RegFile.get (x : RegFile) : Reg → Byte
  | .a => x.a
  | .b => x.b
  | .c => x.c
  | .d => x.d

/-- The register file with `r` holding `v`; no register is hardwired (R16). -/
def RegFile.set (x : RegFile) (r : Reg) (v : Byte) : RegFile :=
  match r with
  | .a => { x with a := v }
  | .b => { x with b := v }
  | .c => { x with c := v }
  | .d => { x with d := v }

/-- `x[r]` (R8). -/
def State.reg (s : State) (r : Reg) : Byte := s.x.get r

/-- `x[r] <- v` (R8). -/
def State.setReg (s : State) (r : Reg) (v : Byte) : State := { s with x := s.x.set r v }

/-- `latch <- v` (R8). -/
def State.setLatch (s : State) (v : Byte) : State := { s with latch := v }

/-- `cycles <- cycles + 1` and `pc <- pc + 1`, which end every executed instruction (R87, R88). -/
def State.retire (s : State) : State := { s with cycles := s.cycles + 1, pc := s.pc + 1 }

/-- Taking the block's exception (R118): the sticky bit is set and the exception shown in this step; there is no vector,
no saved pc and no mode (R121). There is no return from it but reset (R122). -/
def State.takeException (s : State) (e : Fault) : State := { s with fault := true, raised := some e }

/-- Cause code 1 is the only code (R118). -/
def Fault.code : Fault → Nat
  | .illegalInstruction _ _ => 1

/-- Reset of the block (R130). The program, the host's schedule, the tracing switch and the parameters are no state of
the block, so they stay. -/
def State.resetBlock (s : State) : State :=
  { s with x := .zero, latch := 0, cycles := 0, pc := 0, fault := false }

/-- The word the sequencer fetches: `P[pc]`, and none at the end of the program (R23, R80). -/
def State.fetch (s : State) : Option Word := s.program[s.pc]?

/-- The ports as sampled in this step (R30): the host's next explicit sample, or else the sequencer's `P[pc]` with
`instr_valid = 1`, or `instr_valid = 0` once `pc` has reached the end. -/
def State.sample (s : State) : PortsIn :=
  match s.inputs with
  | p :: _ => p
  | [] =>
    match s.fetch with
    | some w => { rst := false, instrValid := true, instr := w }
    | none => { rst := false, instrValid := false, instr := 0 }

/-- The start of a step: the sample is used up, and the outputs of the previous step no longer show. -/
def State.beginStep (s : State) : State :=
  { s with inputs := s.inputs.tail, raised := none, traceOut := none }

/-- Step 6 of the template (R92): the record of the instruction just executed, if tracing is enabled (R96). `s` is the
state after the writes, so `cycle` is the counter after its increment; the word is the one fetched (R93). -/
def State.emitTrace (s : State) (i : Instr) (w : Word) : State :=
  if s.tracing then
    { s with traceOut := some { cycle := s.cycles, instr := i, word := w, x := s.x, latch := s.latch } }
  else s

/-- The output ports (R29). -/
structure PortsOut where
  outData : Byte
  regA : Byte
  regB : Byte
  regC : Byte
  regD : Byte
  cycleCount : Nat
  fault : Bool
  illegal : Bool
  trace : Option TraceRecord
  deriving DecidableEq, Repr

/-- What the output ports show at the end of the latest step (R31). -/
def State.outputs (s : State) : PortsOut :=
  { outData := s.latch, regA := s.x.a, regB := s.x.b, regC := s.x.c, regD := s.x.d, cycleCount := s.cycles,
    fault := s.fault, illegal := s.raised.isSome, trace := s.traceOut }

/-- `w` placed where the sequencer fetches next: at index `pc` of the program. A program shorter than `pc` is filled up
with words 0, which no step before this one fetches (log 18). -/
def placeWord (program : List Word) (pc : Nat) (w : Word) : List Word :=
  program.take pc ++ List.replicate (pc - program.length) 0 ++ w :: program.drop (pc + 1)

end Sys2Proof.Machine
end

