-- ==== Sys2Proof/Machine/Cycle.lean ====
section
/-! DEFINITION. What one step does (spec/10_state.md R30, spec/40_execution_cycle.md R80), over the meaning `execute` of
a decoded instruction. It stands here, not in Step.lean, so that a repair may mend it. -/

namespace Sys2Proof.Machine

/-- Actions (4) and (5) of R30: the presented word is decoded; an illegal one raises the exception (R118), any other is
executed and traced (R81, R92). `s` is the state at the start of the step. -/
def runWord (execute : Instr → State → Host.Outcome State Fault Refusal) (w : Word) (s : State) :
    Host.Outcome State Fault Refusal :=
  match decode s.params w with
  | .refused why => .refused (.undecodable why)
  | .illegal => .next (s.takeException (.illegalInstruction w s.pc))
  | .instr i =>
    match execute i s with
    | .next t => .next (t.emitTrace i w)
    | .fault e => .fault e
    | .refused e => .refused e

/-- One step (R30), in the spec's order of precedence: reset, a held fault, no word, the word. -/
def blockStep (execute : Instr → State → Host.Outcome State Fault Refusal) (s : State) :
    Host.Outcome State Fault Refusal :=
  if s.sample.rst then .next s.beginStep.resetBlock
  else if s.fault then .next s.beginStep
  else if s.sample.instrValid then runWord execute s.sample.instr s.beginStep
  else .next s.beginStep

end Sys2Proof.Machine
end

