-- ==== Sys2Proof/Machine/Operands.lean ====
section
/-! DEFINITION. The operand value, and the two shapes of the common execution template (spec/40_execution_cycle.md R81). -/

namespace Sys2Proof.Machine

/-- `opv` (R83): the immediate, or the register's value before the destination is written. -/
def State.operandValue (s : State) : Operand → Byte
  | .imm n => n
  | .reg rs => s.reg rs

/-- The template for a unary instruction that writes its register (R81, R82, R86): `x[rd] <- f(wv)`. -/
def unaryOp (f : Byte → Byte) (rd : Reg) (s : State) : Host.Outcome State Fault Refusal :=
  .next (s.setReg rd (f (s.reg rd))).retire

/-- The template for a binary instruction (R81 to R83, R86): `x[rd] <- f(wv, opv)`, both read from the state before the
write. -/
def binaryOp (f : Byte → Byte → Byte) (rd : Reg) (src : Operand) (s : State) : Host.Outcome State Fault Refusal :=
  .next (s.setReg rd (f (s.reg rd) (s.operandValue src))).retire

end Sys2Proof.Machine
end

