-- ==== Sys2Proof/Machine/Arithmetic.lean ====
section
/-! DEFINITION. ADD, SUB, MUL, IMUL (spec/43_arithmetic.md). Each result is computed on unbounded integers and brought
back to 8 bits where the rule writes `mod 256` (R7). -/

namespace Sys2Proof.Machine

/-- `(wv + opv) mod 256` (R104). -/
def addByte (wv opv : Byte) : Byte := BitVec.ofNat 8 ((wv.toNat + opv.toNat) % 256)

/-- `(wv - opv) mod 256`, destination minus operand (R105, D11). -/
def subByte (wv opv : Byte) : Byte := BitVec.ofInt 8 (((wv.toNat : Int) - (opv.toNat : Int)) % 256)

/-- `(wv * opv) mod 256` (R106). -/
def mulByte (wv opv : Byte) : Byte := BitVec.ofNat 8 ((wv.toNat * opv.toNat) % 256)

/-- IMUL under `SignBitOr` (R107): the magnitudes are bits [6:0], and the sign goes into bit 7. -/
def imulSignBitOr (wv opv : Byte) : Byte :=
  let p := (wv.toNat % 128) * (opv.toNat % 128) % 128
  BitVec.ofNat 8 ((wv.msb ^^ opv.msb).toNat * 128 + p)

/-- The two's-complement magnitude of R108; 0x80 gives 128. -/
def magnitude (v : Byte) : Nat := if v.msb then (256 - v.toNat) % 256 else v.toNat

/-- IMUL under `TwosNegate` (R108): the sign is reapplied by negation. -/
def imulTwosNegate (wv opv : Byte) : Byte :=
  let p := magnitude wv * magnitude opv % 128
  BitVec.ofNat 8 (if wv.msb ^^ opv.msb then (256 - p) % 256 else p)

/-- IMUL under the parameter IMUL_MODE (R107, R108, D9). -/
def imulByte (mode : ImulMode) (wv opv : Byte) : Byte :=
  match mode with
  | .signBitOr => imulSignBitOr wv opv
  | .twosNegate => imulTwosNegate wv opv

/-- ADD (R104). -/
def execAdd (rd : Reg) (src : Operand) (s : State) : Host.Outcome State Fault Refusal := binaryOp addByte rd src s

/-- SUB (R105). -/
def execSub (rd : Reg) (src : Operand) (s : State) : Host.Outcome State Fault Refusal := binaryOp subByte rd src s

/-- MUL (R106). -/
def execMul (rd : Reg) (src : Operand) (s : State) : Host.Outcome State Fault Refusal := binaryOp mulByte rd src s

/-- IMUL (R107, R108). -/
def execImul (rd : Reg) (src : Operand) (s : State) : Host.Outcome State Fault Refusal :=
  binaryOp (imulByte s.params.imul) rd src s

end Sys2Proof.Machine
end

