-- ==== Sys2Proof/Machine/Logic.lean ====
section
/-! DEFINITION. AND, OR, XOR (spec/44_logic.md). -/

namespace Sys2Proof.Machine

/-- AND (R110): `wv & opv`. -/
def execAnd (rd : Reg) (src : Operand) (s : State) : Host.Outcome State Fault Refusal :=
  binaryOp (fun wv opv => wv &&& opv) rd src s

/-- OR (R111): `wv | opv`. -/
def execOr (rd : Reg) (src : Operand) (s : State) : Host.Outcome State Fault Refusal :=
  binaryOp (fun wv opv => wv ||| opv) rd src s

/-- XOR (R112): `wv ^ opv`. -/
def execXor (rd : Reg) (src : Operand) (s : State) : Host.Outcome State Fault Refusal :=
  binaryOp (fun wv opv => wv ^^^ opv) rd src s

end Sys2Proof.Machine
end

