-- ==== Sys2Proof/Machine/Move.lean ====
section
/-! DEFINITION. MOV (spec/42_move.md). -/

namespace Sys2Proof.Machine

/-- MOV (R103): `x[rd] <- opv`; the working value is read and has no effect. -/
def execMov (rd : Reg) (src : Operand) (s : State) : Host.Outcome State Fault Refusal :=
  binaryOp (fun _ opv => opv) rd src s

end Sys2Proof.Machine
end

