-- ==== Sys2Proof/Machine/Shift.lean ====
section
/-! DEFINITION. SHL, SHR (spec/45_shift.md). The amount is the whole operand, never masked (R115). -/

namespace Sys2Proof.Machine

/-- `(wv * 2^n) mod 256` (R113); for `n ≥ 8` the parameter SHIFT_GE8 decides, and `Zero` is what the formula gives
(R115). -/
def shlByte (ge8 : ShiftGe8) (wv n : Byte) : Byte :=
  if ge8 = .uninterpreted ∧ 8 ≤ n.toNat then Config.shlGe8 wv n
  else BitVec.ofNat 8 (wv.toNat * 2 ^ n.toNat % 256)

/-- `floor(wv / 2^n)`, with zero fill (R114); for `n ≥ 8` as SHL (R115). -/
def shrByte (ge8 : ShiftGe8) (wv n : Byte) : Byte :=
  if ge8 = .uninterpreted ∧ 8 ≤ n.toNat then Config.shrGe8 wv n
  else BitVec.ofNat 8 (wv.toNat / 2 ^ n.toNat)

/-- SHL (R113). -/
def execShl (rd : Reg) (src : Operand) (s : State) : Host.Outcome State Fault Refusal :=
  binaryOp (shlByte s.params.shiftGe8) rd src s

/-- SHR (R114). -/
def execShr (rd : Reg) (src : Operand) (s : State) : Host.Outcome State Fault Refusal :=
  binaryOp (shrByte s.params.shiftGe8) rd src s

end Sys2Proof.Machine
end

