-- ==== Sys2Proof/Machine/Unary.lean ====
section
/-! DEFINITION. OUT, NEG, NOT (spec/41_unary.md). -/

namespace Sys2Proof.Machine

/-- `(~v + 1) mod 256` (R101). -/
def negByte (v : Byte) : Byte := BitVec.ofNat 8 ((255 - v.toNat + 1) % 256)

/-- `~v`, which is `255 - v` (R7, R102). -/
def notByte (v : Byte) : Byte := BitVec.ofNat 8 (255 - v.toNat)

/-- OUT (R100): the working value goes to the latch; the register file is unchanged. -/
def execOut (rd : Reg) (s : State) : Host.Outcome State Fault Refusal := .next (s.setLatch (s.reg rd)).retire

/-- NEG (R101). -/
def execNeg (rd : Reg) (s : State) : Host.Outcome State Fault Refusal := unaryOp negByte rd s

/-- NOT (R102). -/
def execNot (rd : Reg) (s : State) : Host.Outcome State Fault Refusal := unaryOp notByte rd s

end Sys2Proof.Machine
end

