-- ==== Sys2Proof/Machine/Dispatch.lean ====
section
/-! DEFINITION. The dispatch: one arm per instruction, in the order of spec/opcode_table.json. -/

namespace Sys2Proof.Machine

def exec (i : Instr) (s : State) : Host.Outcome State Fault Refusal :=
  match i with
  | .mov rd src => Sys2Proof.Machine.execMov rd src s
  | .add rd src => Sys2Proof.Machine.execAdd rd src s
  | .sub rd src => Sys2Proof.Machine.execSub rd src s
  | .xor rd src => Sys2Proof.Machine.execXor rd src s
  | .shl rd src => Sys2Proof.Machine.execShl rd src s
  | .shr rd src => Sys2Proof.Machine.execShr rd src s
  | .mul rd src => Sys2Proof.Machine.execMul rd src s
  | .imul rd src => Sys2Proof.Machine.execImul rd src s
  | .and rd src => Sys2Proof.Machine.execAnd rd src s
  | .or rd src => Sys2Proof.Machine.execOr rd src s
  | .out rd => Sys2Proof.Machine.execOut rd s
  | .neg rd => Sys2Proof.Machine.execNeg rd s
  | .not rd => Sys2Proof.Machine.execNot rd s

end Sys2Proof.Machine
end

