-- ==== Sys2Proof/Machine/Step.lean ====
section
/-! DEFINITION. The step, and the placing of a word where the next step fetches. -/

namespace Sys2Proof.Machine

/-- One step of the block under its host (spec/10_state.md R30). -/
def step (s : State) : Host.Outcome State Fault Refusal := blockStep exec s

/-- `s` with the word `w` where the next step fetches: at index `pc` of the program, with no explicit port sample before
it and no fault held, so that the next step presents and runs it (log 18). -/
def State.withFetchWord (s : State) (nbits w : Nat) : State :=
  { s with
    program := placeWord s.program s.pc (BitVec.ofNat 17 (w % 2 ^ nbits))
    inputs := []
    fault := false }

end Sys2Proof.Machine
end

