-- ==== Sys2Proof/Machine/Text.lean ====
section
/-! DEFINITION. The text functions of the ISA model (spec/30_encoding.md R63, R64), on lists of characters. -/

namespace Sys2Proof.Machine

/-- `UnknownSymbol` (R75): "a mnemonic or register name outside the closed vocabulary", with R63's two names. -/
inductive SymbolError where
  | unknownOperation (name : List Char)
  | unknownRegister (name : List Char)
  deriving DecidableEq, Repr

/-- The 13 mnemonics, in lower case (R66). -/
def mnemonicText : Operation → List Char
  | .mov => ['m', 'o', 'v']
  | .add => ['a', 'd', 'd']
  | .sub => ['s', 'u', 'b']
  | .xor => ['x', 'o', 'r']
  | .shl => ['s', 'h', 'l']
  | .shr => ['s', 'h', 'r']
  | .mul => ['m', 'u', 'l']
  | .imul => ['i', 'm', 'u', 'l']
  | .and => ['a', 'n', 'd']
  | .or => ['o', 'r']
  | .out => ['o', 'u', 't']
  | .neg => ['n', 'e', 'g']
  | .not => ['n', 'o', 't']

/-- A text in a letter case. -/
def inCase (c : LetterCase) (t : List Char) : List Char :=
  match c with
  | .lower => t.map Char.toLower
  | .upper => t.map Char.toUpper

/-- `operation_to_text` (R63); the case is the open parameter MNEMONIC_CASE (R64). -/
def operationToText (c : LetterCase) (op : Operation) : List Char := inCase c (mnemonicText op)

/-- `operation_from_text` (R63): a case-insensitive lookup among the 13 mnemonics. -/
def operationFromText (name : List Char) : Except SymbolError Operation :=
  match Operation.all.find? (fun op => mnemonicText op == name.map Char.toLower) with
  | some op => .ok op
  | none => .error (.unknownOperation name)

/-- `register_to_text` (R64): the upper-case letter. -/
def registerToText : Reg → List Char
  | .a => ['A']
  | .b => ['B']
  | .c => ['C']
  | .d => ['D']

/-- `register_from_text` (R63): a case-insensitive lookup among A, B, C, D. -/
def registerFromText (name : List Char) : Except SymbolError Reg :=
  match [Reg.a, Reg.b, Reg.c, Reg.d].find? (fun r => registerToText r == name.map Char.toUpper) with
  | some r => .ok r
  | none => .error (.unknownRegister name)

/-- The value of a digit character in a base, if it is one: digits 0 to 9, then the letters a to f in either case (R71). -/
def digitValue (base : Nat) (c : Char) : Option Nat :=
  let l := c.toLower
  let v :=
    if '0' ≤ l ∧ l ≤ '9' then some (l.toNat - 48)
    else if 'a' ≤ l ∧ l ≤ 'f' then some (l.toNat - 87)
    else none
  v.filter (· < base)

/-- The number that a list of digits spells after `acc`, most significant digit first (R38 G2). -/
def digitsValue (base : Nat) : List Char → Nat → Option Nat
  | [], acc => some acc
  | c :: cs, acc =>
    match digitValue base c with
    | some d => digitsValue base cs (acc * base + d)
    | none => none

/-- One hexadecimal digit, lower case. -/
def hexDigit (n : Nat) : Char := if n < 10 then Char.ofNat (48 + n) else Char.ofNat (87 + n)

/-- The last `k` hexadecimal digits of `v`, zero-padded, most significant first (R77). -/
def hexDigits : Nat → Nat → List Char
  | 0, _ => []
  | k + 1, v => hexDigits k (v / 16) ++ [hexDigit (v % 16)]

/-- How many hexadecimal digits a word takes: 4, or 5 under `Widen6` (R77, R94). -/
def hexWidth : EncMode → Nat
  | .truncate5 => 4
  | .widen6 => 5

end Sys2Proof.Machine
end

