-- ==== Sys2Proof/Machine/Assembler.lean ====
section
/-! DEFINITION. The assembler, the toolchain that produces the words (spec/30_encoding.md R65 to R76). It is no part of
the block: no step reads a text. -/

namespace Sys2Proof.Machine

/-- The two error kinds of the assembler (R75). -/
inductive AsmError where
  /-- Lines and columns count from 1 (R74). -/
  | syntaxError (line column : Nat)
  /-- From the lookup functions, never from `parse` (R75). -/
  | unknownSymbol (e : SymbolError)
  deriving DecidableEq, Repr

/-- `ws`: a space or a horizontal tab (R66). -/
def isWs (c : Char) : Bool := c == ' ' || c == '\t'

/-- `ws*`. -/
def skipWs (l : List Char) : List Char := l.dropWhile isWs

/-- `comment? EOL`: nothing is left of the line but a comment (R66, R69). -/
def atLineEnd : List Char → Bool
  | [] => true
  | c :: _ => c == ';'

/-- The lines of a text (R65): LF separates, the last line may lack it, and a CR just before LF is whitespace. -/
def sourceLines : List Char → List (List Char)
  | [] => [[]]
  | '\n' :: cs => [] :: sourceLines cs
  | '\r' :: '\n' :: cs => [' '] :: sourceLines cs
  | c :: cs =>
    match sourceLines cs with
    | [] => [[c]]
    | l :: ls => (c :: l) :: ls

/-- A character of an operand token: `[-0-9A-Za-z]` (R71). -/
def isTokenChar (c : Char) : Bool := c == '-' || c.isAlphanum

/-- The base that a literal's last character gives it, and its digits (R71). -/
def literalBase (t : List Char) : Nat × List Char :=
  match t.getLast?.map Char.toLower with
  | some 'h' => (16, t.dropLast)
  | some 'b' => (2, t.dropLast)
  | some 'o' => (8, t.dropLast)
  | some 'd' => (10, t.dropLast)
  | _ => (10, t)

/-- The magnitude of a literal without its minus sign; none where the token is no literal (R71, R72). -/
def literalMagnitude (t : List Char) : Option Nat :=
  match literalBase t with
  | (_, []) => none
  | (base, digits) => digitsValue base digits 0

/-- The immediate of a magnitude (R72): `m`, or `(256 - m) mod 256` with a minus sign. Above 255 LITERAL_OVERFLOW
decides (R73). -/
def literalImmediate (ov : LiteralOverflow) (minus : Bool) (m : Nat) : Option Byte :=
  if m ≤ 255 then some (BitVec.ofNat 8 (if minus then (256 - m) % 256 else m))
  else
    match ov with
    | .reject => none
    | .accept => some (Config.overflowImmediate minus m)

/-- The immediate of a token without its minus sign. -/
def literalOperand (ov : LiteralOverflow) (minus : Bool) (t : List Char) : Option Operand :=
  match literalMagnitude t with
  | some m => (literalImmediate ov minus m).map .imm
  | none => none

/-- The classification of an operand token (R71): a register if it is one letter A to D without a minus sign, else a
literal. None is a SyntaxError. -/
def operandOfToken (ov : LiteralOverflow) : List Char → Option Operand
  | '-' :: t => literalOperand ov true t
  | t =>
    match registerFromText t with
    | .ok r => some (.reg r)
    | .error _ => literalOperand ov false t

/-- The column, from 1, at which `rest` starts in its line. -/
def columnOf (line rest : List Char) : Nat := line.length - rest.length + 1

/-- A register name ends at whitespace, `,`, `;` or the end of the line (R67). -/
def registerEnds : List Char → Bool
  | [] => true
  | c :: _ => isWs c || c == ',' || c == ';'

/-- The rest of a binary line after its register: `ws* "," ws* operand ws* comment? EOL` (R66). -/
def parseOperand (ov : LiteralOverflow) (line rest : List Char) : Except Nat Operand :=
  match skipWs rest with
  | ',' :: afterComma =>
    let token := skipWs afterComma
    match operandOfToken ov (token.takeWhile isTokenChar) with
    | some o =>
      let tail := skipWs (token.dropWhile isTokenChar)
      if atLineEnd tail then .ok o else .error (columnOf line tail)
    | none => .error (columnOf line token)
  | other => .error (columnOf line other)

/-- A line after its mnemonic's whitespace: the register and, for a binary operation, the operand (R66, R68). -/
def parseRegister (ov : LiteralOverflow) (op : Operation) (line rest : List Char) : Except Nat InstrRecord :=
  match rest with
  | [] => .error (columnOf line rest)
  | c :: afterReg =>
    match registerFromText [c] with
    | .error _ => .error (columnOf line rest)
    | .ok rd =>
      if registerEnds afterReg then
        match op.arity with
        | .unary =>
          let tail := skipWs afterReg
          if atLineEnd tail then .ok ⟨op, rd, none⟩ else .error (columnOf line tail)
        | .binary =>
          match parseOperand ov line afterReg with
          | .ok o => .ok ⟨op, rd, some o⟩
          | .error col => .error col
      else .error (columnOf line rest)

/-- One line (R66): a binary instruction, a unary one, or nothing; an error is the column of the failure. -/
def parseLine (ov : LiteralOverflow) (line : List Char) : Except Nat (Option InstrRecord) :=
  let start := skipWs line
  if atLineEnd start then .ok none
  else
    match operationFromText (start.takeWhile Char.isAlpha) with
    | .error _ => .error (columnOf line start)
    | .ok op =>
      let afterName := start.dropWhile Char.isAlpha
      if (afterName.head?.map isWs).getD false then
        match parseRegister ov op line (skipWs afterName) with
        | .ok r => .ok (some r)
        | .error col => .error col
      else .error (columnOf line afterName)

/-- The lines from line number `n` on (R74): all of the instructions, in source order, or the first failure. -/
def parseLines (ov : LiteralOverflow) : Nat → List (List Char) → Except AsmError (List InstrRecord)
  | _, [] => .ok []
  | n, l :: ls =>
    match parseLine ov l with
    | .error col => .error (.syntaxError n col)
    | .ok r =>
      match parseLines ov (n + 1) ls with
      | .error e => .error e
      | .ok rs => .ok (r.toList ++ rs)

/-- The parser: a source text to its instruction records (R65 to R74). -/
def parse (ov : LiteralOverflow) (text : List Char) : Except AsmError (List InstrRecord) :=
  parseLines ov 1 (sourceLines text)

/-- The assembler: a source text to the words of its instructions (R50, R76). -/
def assemble (ov : LiteralOverflow) (m : EncMode) (map : OpcodeMap) (text : List Char) : Except AsmError (List Word) :=
  match parse ov text with
  | .error e => .error e
  | .ok rs => .ok ((rs.filterMap InstrRecord.toInstr).map (encode m map))

end Sys2Proof.Machine
end

