-- ==== Sys2Proof/Machine/Listing.lean ====
section
/-! DEFINITION. The encoded program format (spec/30_encoding.md R77), and the byte order of a byte-oriented loader
(spec/20_memory.md R38). Both are outside the block. -/

namespace Sys2Proof.Machine

/-- Why a listing is refused; each carries the line, counted from 1. -/
inductive ListingError where
  | badMarker
  | noDigits (line : Nat)
  | tooManyDigits (line : Nat)
  | badDigit (line : Nat)
  /-- "Refuses a value wider than WORD_WIDTH" (R77). -/
  | tooWide (line : Nat)
  deriving DecidableEq, Repr

/-- The writer (R77): the format marker's line, then one word a line in lower-case hexadecimal, zero-padded. -/
def writeListing (marker : List Char) (m : EncMode) (ws : List Word) : List Char :=
  marker ++ '\n' :: ws.flatMap (fun w => hexDigits (hexWidth m) w.toNat ++ ['\n'])

/-- A text cut at its LFs. DESIGN CHOICE (log 23): R77 does not say what separates the lines for the reader; LF alone
does, and a CR stays in its line. -/
def cutLines : List Char → List (List Char)
  | [] => [[]]
  | '\n' :: cs => [] :: cutLines cs
  | c :: cs =>
    match cutLines cs with
    | [] => [[c]]
    | l :: ls => (c :: l) :: ls

/-- One word of a listing: 1 to 4 digits (1 to 5 under `Widen6`) in either case, no wider than WORD_WIDTH (R77).
DESIGN CHOICE (log 23): R77 is silent on a CR or whitespace beside the digits; a line with either is refused. -/
def readWord (m : EncMode) (line : Nat) (l : List Char) : Except ListingError Word :=
  if l = [] then .error (.noDigits line)
  else if hexWidth m < l.length then .error (.tooManyDigits line)
  else
    match digitsValue 16 l 0 with
    | none => .error (.badDigit line)
    | some v => if v < 2 ^ m.wordWidth then .ok (BitVec.ofNat 17 v) else .error (.tooWide line)

/-- The words of a listing from line `n` on; what follows the last LF may be empty. -/
def readWords (m : EncMode) : Nat → List (List Char) → Except ListingError (List Word)
  | _, [] => .ok []
  | n, l :: ls =>
    if l = [] ∧ ls = [] then .ok []
    else
      match readWord m n l with
      | .error e => .error e
      | .ok w =>
        match readWords m (n + 1) ls with
        | .error e => .error e
        | .ok ws => .ok (w :: ws)

/-- The reader (R77). -/
def readListing (marker : List Char) (m : EncMode) (text : List Char) : Except ListingError (List Word) :=
  match cutLines text with
  | [] => .error .badMarker
  | first :: rest => if first = marker then readWords m 2 rest else .error .badMarker

/-- The bytes a byte-oriented loader keeps a word in, in its LOADER_BYTE_ORDER: two, or three under `Widen6` (D13,
log 16). -/
def wordBytes (order : ByteOrder) (m : EncMode) (w : Word) : List Byte :=
  let low := [BitVec.ofNat 8 (w.toNat % 256), BitVec.ofNat 8 (w.toNat / 256 % 256)]
  let bytes := match m with
    | .truncate5 => low
    | .widen6 => low ++ [BitVec.ofNat 8 (w.toNat / 65536 % 256)]
  match order with
  | .leastSignificantFirst => bytes
  | .mostSignificantFirst => bytes.reverse

/-- The word those bytes hold. -/
def bytesWord (order : ByteOrder) (bs : List Byte) : Word :=
  let ls := match order with
    | .leastSignificantFirst => bs
    | .mostSignificantFirst => bs.reverse
  BitVec.ofNat 17 (ls.foldr (fun b acc => b.toNat + 256 * acc) 0)

end Sys2Proof.Machine
end

