-- ==== Sys2Proof/Machine/Trace.lean ====
section
/-! DEFINITION. The trace as the stream of records a run emits (spec/40_execution_cycle.md R92, R95), and the external
renderer with what R94 leaves open as arguments. -/

namespace Sys2Proof.Machine

/-- The records emitted in the next `k` steps, oldest first, up to a refusal (R95). -/
def traceStream : Nat → State → List TraceRecord
  | 0, _ => []
  | k + 1, s =>
    match step s with
    | .next t => t.traceOut.toList ++ traceStream k t
    | .fault _ => []
    | .refused _ => []

/-- Hexadecimal digits in the style's letter case. -/
def styledHex (style : TraceStyle) (k v : Nat) : List Char := inCase style.hexCase (hexDigits k v)

/-- The operand of a trace line. How an immediate is rendered is not in the source (R94, N9), so `immText` says it.
DEDUCED (log 24): a register is spelled by `register_to_text`, the upper-case letter, since R92 renders the line "via
§4.1's text functions"; N9 says not to assume how a register operand is rendered. -/
def operandText (immText : Byte → List Char) : Operand → List Char
  | .imm n => immText n
  | .reg rs => registerToText rs

/-- "Mnemonic, destination, and operand when binary" (R92). -/
def instrText (style : TraceStyle) (immText : Byte → List Char) (i : Instr) : List Char :=
  operationToText style.mnemonicCase i.op ++ style.mnemonicSeparator ++ registerToText i.rd ++
    match i.operand with
    | none => []
    | some o => style.operandSeparator ++ operandText immText o

/-- One trace line (R92, R94): cycle, instruction, word with four digits (five under `Widen6`), the four registers and
the latch with two digits each, in this order. `cycleText` is CYCLE_FORMAT. -/
def renderTrace (style : TraceStyle) (cycleText : Nat → List Char) (immText : Byte → List Char) (m : EncMode)
    (r : TraceRecord) : List Char :=
  style.fieldSeparator.intercalate
    [cycleText r.cycle, instrText style immText r.instr, styledHex style (hexWidth m) r.word.toNat,
      styledHex style 2 r.x.a.toNat, styledHex style 2 r.x.b.toNat, styledHex style 2 r.x.c.toNat,
      styledHex style 2 r.x.d.toNat, styledHex style 2 r.latch.toNat]

end Sys2Proof.Machine
end

