-- ==== Sys2Proof/Safety.lean ====
section
/-! DEFINITION. What a run is and how it ends (spec/40_execution_cycle.md R79, R90), the invariants of the machine, and
the terms the statements use. -/

namespace Sys2Proof.Safety

open Sys2Proof.Machine

/-- The start of a run of `P` (R79): the reset state with the program the host presents. -/
def startRun (p : Params) (P : List Word) : State := { State.reset with params := p, program := P }

/-- The host launches `P` on the block, in whatever state it is: the program's words are at hand and `rst` is asserted for
one step, with no word beside it (R32, R79, R135). -/
def launch (s : State) (P : List Word) : State := { s with program := P, inputs := [⟨true, false, 0⟩] }

/-- `Completed` (R90): `pc = N` and `fault = 0`. -/
def Completed (s : State) : Prop := s.pc = s.program.length ∧ s.fault = false

/-- `Faulted` (R90): `fault = 1`. A faulted run is never final. -/
def Faulted (s : State) : Prop := s.fault = true

/-- The host does its duty and nothing else (R32): no explicit port sample is pending, and `pc` is in 0..N (R23). -/
def Sequenced (s : State) : Prop := s.inputs = [] ∧ s.pc ≤ s.program.length

/-- The parameters decode every word that fits: an ENC_MODE the spec defines, and an OPCODE_MAP without clashes. -/
def Decodable (p : Params) : Prop := ∃ m, p.enc = .mode m ∧ codesDistinct m p.map = true

/-- The word fits the port under the parameters' ENC_MODE (R29, R77). -/
def Fits (p : Params) (w : Word) : Prop := ∃ m, p.enc = .mode m ∧ wordFits m w = true

/-- The word decodes to an instruction (R58). -/
def Legal (p : Params) (w : Word) : Prop := ∃ i, decode p w = .instr i

/-- The machine's invariant: `pc` and the cycle counter agree (both start at 0 and both count executed instructions, R87,
R88); an exception shows only with the sticky bit set (R118); and a trace record shows the state it was emitted in, after
at least one instruction and without a fault (R92, R96). -/
structure Consistent (s : State) : Prop where
  pc_cycles : s.pc = s.cycles
  raised_fault : s.raised ≠ none → s.fault = true
  trace_current : ∀ r, s.traceOut = some r →
    r.cycle = s.cycles ∧ r.x = s.x ∧ r.latch = s.latch ∧ 1 ≤ r.cycle ∧ s.fault = false ∧ s.tracing = true

/-- The five fields of the spec's State record agree (R27). -/
def SameBlock (s t : State) : Prop :=
  t.x = s.x ∧ t.latch = s.latch ∧ t.cycles = s.cycles ∧ t.pc = s.pc ∧ t.fault = s.fault

/-- Everything outside the block that no instruction touches is unchanged, the outputs of the step among it: they are
written by the step around the instruction. -/
def SameSurroundings (s t : State) : Prop :=
  t.raised = s.raised ∧ t.traceOut = s.traceOut ∧ t.program = s.program ∧ t.inputs = s.inputs ∧
    t.tracing = s.tracing ∧ t.params = s.params

/-- `t` is `s` after one executed instruction that writes the value `v` to register `rd` and nothing else: every other
register, the latch and the fault bit as before, one instruction counted, the index advanced (R81, R86 to R88, R97). -/
structure WritesRegister (s t : State) (rd : Reg) (v : Nat) : Prop where
  value : (t.reg rd).toNat = v
  others : ∀ r, r ≠ rd → t.reg r = s.reg r
  latch : t.latch = s.latch
  cycles : t.cycles = s.cycles + 1
  pc : t.pc = s.pc + 1
  fault : t.fault = s.fault
  surroundings : SameSurroundings s t

/-- `t` is `s` after one executed instruction that writes `v` to the latch and nothing else (R100). -/
structure WritesLatch (s t : State) (v : Byte) : Prop where
  value : t.latch = v
  registers : ∀ r, t.reg r = s.reg r
  cycles : t.cycles = s.cycles + 1
  pc : t.pc = s.pc + 1
  fault : t.fault = s.fault
  surroundings : SameSurroundings s t

/-- `k` steps of the machine, up to the first stop; it is the host's `Core.run` (`Laws/Step.lean`, `run_eq_core`). -/
def run : Nat → State → Host.Outcome State Fault Refusal
  | 0, s => .next s
  | k + 1, s =>
    match step s with
    | .next t => run k t
    | .fault e => .fault e
    | .refused e => .refused e

end Sys2Proof.Safety
end

