-- ==== Sys2Proof/Certificates/Slice0/Obligations.lean ====
section
/-! DEFINITION. The statements for the provers. Rule numbers are those of spec/. Every statement ranges over all states
that meet its hypotheses, reached by a run or not; `s.sample` is what the ports carry in the step from `s`. Many of the
rules carry the spec's mark "[decision: D<n>]": those are the spec's own choices where its source is silent, and this
hardware's rules all the same. A rule marked "[derived]" is the spec's inference, and a statement of it is listed as
derived. -/

open Sys2Proof Sys2Proof.Machine Sys2Proof.Safety

/-! ### Reset and the step -/

/-- R28: every piece of the block's state after reset. -/
def Obligations.ResetStateValues : Prop :=
  (∀ r, State.reset.reg r = 0) ∧ State.reset.latch = 0 ∧ State.reset.cycles = 0 ∧ State.reset.pc = 0 ∧
    State.reset.fault = false

/-- R130, R131: a step that samples `rst = 1` puts the whole block at its reset values, held fault and all, and discards
a word presented with it: none is executed, counted, found illegal or traced. -/
def Obligations.ResetStepZeroesTheBlock : Prop :=
  ∀ s : State, s.sample.rst = true →
    ∃ t, step s = .next t ∧ (∀ r, t.reg r = 0) ∧ t.latch = 0 ∧ t.cycles = 0 ∧ t.pc = 0 ∧ t.fault = false ∧
      t.raised = none ∧ t.traceOut = none

/-- R30: a step takes exactly one of five actions, in the spec's order of precedence. `beginStep` uses up the sample and
clears the outputs of the step before. -/
def Obligations.BlockStepPrecedence : Prop :=
  ∀ s : State,
    (s.sample.rst = true → step s = .next s.beginStep.resetBlock) ∧
    (s.sample.rst = false → s.fault = true → step s = .next s.beginStep) ∧
    (s.sample.rst = false → s.fault = false → s.sample.instrValid = false → step s = .next s.beginStep) ∧
    (s.sample.rst = false → s.fault = false → s.sample.instrValid = true →
      decode s.params s.sample.instr = .illegal →
      step s = .next (s.beginStep.takeException (.illegalInstruction s.sample.instr s.pc))) ∧
    (∀ i, s.sample.rst = false → s.fault = false → s.sample.instrValid = true →
      decode s.params s.sample.instr = .instr i →
      ∃ t, exec i s.beginStep = .next t ∧ step s = .next (t.emitTrace i s.sample.instr))

/-- R80: with `pc < N`, `fault = 0` and nothing but the program presented, the step fetches `P[pc]` and runs what it
decodes to: `exec` of the instruction at the state whose outputs are cleared, then the trace record; or the exception. -/
def Obligations.SequencedStepRunsDecodedWord : Prop :=
  ∀ (s : State) (w : Word), s.inputs = [] → s.fault = false → s.program[s.pc]? = some w →
    (decode s.params w = .illegal →
      step s = .next (s.beginStep.takeException (.illegalInstruction w s.pc))) ∧
    (∀ i, decode s.params w = .instr i →
      ∃ t, exec i s.beginStep = .next t ∧ step s = .next (t.emitTrace i w))

/-- R22: the fault bit is set by an illegal word, is cleared by reset alone, and while it is set nothing else changes. -/
def Obligations.FaultBitRule : Prop :=
  ∀ s t : State, step s = .next t →
    (t.fault = true ↔ s.sample.rst = false ∧
      (s.fault = true ∨ (s.sample.instrValid = true ∧ decode s.params s.sample.instr = .illegal))) ∧
    (s.fault = true → s.sample.rst = false → SameBlock s t)

/-- R122: while a fault is held and the host does not reset, no number of steps executes a word, takes a second fault or
emits a record; a reset leaves the faulted state. -/
def Obligations.HeldFaultFreezesTheBlock : Prop :=
  (∀ (k : Nat) (s : State), s.fault = true → (∀ p ∈ s.inputs, p.rst = false) →
    ∃ t, run k s = .next t ∧ SameBlock s t ∧ (0 < k → t.raised = none ∧ t.traceOut = none)) ∧
  (∀ s : State, s.fault = true → s.sample.rst = true → ∃ t, step s = .next t ∧ t.fault = false)

/-- R129: a step with `instr_valid = 0` (and no reset) changes no state of the block. -/
def Obligations.IdleStepChangesNothing : Prop :=
  ∀ s : State, s.sample.rst = false → s.sample.instrValid = false →
    ∃ t, step s = .next t ∧ SameBlock s t ∧ t.raised = none ∧ t.traceOut = none

/-- R118: a presented word that decodes to nothing raises `IllegalInstruction`, cause code 1, the only code there is: the
bit is set, `illegal` shows, the fault carries (w, pc), and nothing else changes. Under `Truncate5` with the spec's map
these are the words with `w[15:11] >= 13`. -/
def Obligations.IllegalWordRaisesIllegalInstruction : Prop :=
  (∀ s : State, s.sample.rst = false → s.sample.instrValid = true → s.fault = false →
    decode s.params s.sample.instr = .illegal →
    ∃ t, step s = .next t ∧ t.fault = true ∧ t.outputs.illegal = true ∧
      t.raised = some (.illegalInstruction s.sample.instr s.pc) ∧
      t.x = s.x ∧ t.latch = s.latch ∧ t.cycles = s.cycles ∧ t.pc = s.pc ∧ t.traceOut = none) ∧
  (∀ e : Fault, e.code = 1) ∧
  (∀ w : Word, wordFits .truncate5 w = true → (decode .default w = .illegal ↔ 13 ≤ w.toNat / 2048))

/-! ### Invariants -/

/-- Every step keeps the machine's invariant, from every state that has it: the index and the counter agree, an exception
shows only while the sticky bit is set, and a trace record shows the state it stands beside (R87, R88, R92, R118). -/
def Obligations.StepKeepsConsistent : Prop :=
  ∀ s t : State, Consistent s → step s = .next t → Consistent t

/-- The invariant holds after reset, and at the start of a run of any program under any parameters. That no exception and
no trace record shows there is the model's choice (log 10), not a rule of the spec. -/
def Obligations.ResetAndRunStartsAreConsistent : Prop :=
  Consistent State.reset ∧ ∀ (p : Params) (P : List Word), Consistent (startRun p P)

/-- R23: while the host presents its program and nothing else, `pc` stays in 0..N; and no step is taken at `pc = N`: the
block stays as it is. -/
def Obligations.SequencedStepStaysInProgram : Prop :=
  (∀ s t : State, Sequenced s → step s = .next t → Sequenced t) ∧
  (∀ s : State, s.inputs = [] → s.pc = s.program.length → ∃ t, step s = .next t ∧ SameBlock s t)

/-- R19, R23: over any run of a program of N words, `ceil(log2(N + 1))` bits hold the cycle counter and the index. -/
def Obligations.CycleCounterNeverWrapsInARun : Prop :=
  ∀ (k : Nat) (s t : State), Sequenced s → Consistent s → run k s = .next t →
    t.cycles < 2 ^ Nat.clog 2 (s.program.length + 1) ∧ t.pc < 2 ^ Nat.clog 2 (s.program.length + 1)

/-- R34, R45, R21: no step changes the program or the build-time parameters; nor does it touch the tracing switch, which
is the model's own field (log 11). -/
def Obligations.StepKeepsProgramAndParameters : Prop :=
  ∀ s t : State, step s = .next t → t.program = s.program ∧ t.params = s.params ∧ t.tracing = s.tracing

/-- The machine never stops on a word of this hardware: where the parameters decode and the sampled word fits the port,
every step answers a next state; no step ever answers `.fault`; and a refusal is always about a presented word that the
decoder refuses (log 5, 6, 7, 9). -/
def Obligations.DecodableStepAlwaysAnswers : Prop :=
  (∀ s : State, Decodable s.params → Fits s.params s.sample.instr → ∃ t, step s = .next t) ∧
  (∀ (s : State) (e : Fault), step s ≠ .fault e) ∧
  (∀ (s : State) (e : Refusal), step s = .refused e →
    ∃ why, e = .undecodable why ∧ decode s.params s.sample.instr = .refused why ∧
      s.sample.rst = false ∧ s.fault = false ∧ s.sample.instrValid = true)

/-- R61: a request to decode legacy-bleed artifacts is refused, whatever the word. -/
def Obligations.LegacyBleedIsRefused : Prop :=
  (∀ (p : Params) (w : Word), p.enc = .legacyBleed → decode p w = .refused .legacyBleed) ∧
  (∀ s : State, s.params.enc = .legacyBleed → s.sample.rst = false → s.fault = false → s.sample.instrValid = true →
    step s = .refused (.undecodable .legacyBleed))

/-! ### Rules over all instructions -/

/-- R85, R87, R88, R116: every instruction, on every operand value, completes: it answers a next state with one more
instruction counted, the index advanced by one, and no fault. -/
def Obligations.EveryInstructionCompletes : Prop :=
  ∀ (i : Instr) (s : State),
    ∃ t, exec i s = .next t ∧ t.cycles = s.cycles + 1 ∧ t.pc = s.pc + 1 ∧ t.fault = s.fault ∧ SameSurroundings s t

/-- R24, R87, R88: a step that executes an instruction adds 1 to the counter and to the index; an illegal word, a step
without a word and a step with `fault = 1` add nothing. -/
def Obligations.StepCountsExecutedInstructions : Prop :=
  ∀ s t : State, step s = .next t → s.sample.rst = false →
    (s.fault = false ∧ s.sample.instrValid = true ∧ Legal s.params s.sample.instr →
      t.cycles = s.cycles + 1 ∧ t.pc = s.pc + 1) ∧
    (s.fault = true ∨ s.sample.instrValid = false ∨ decode s.params s.sample.instr = .illegal →
      t.cycles = s.cycles ∧ t.pc = s.pc)

/-- R86, R97: no instruction writes a register other than its destination; OUT writes no register; no instruction other
than OUT writes the latch; and none touches the fault bit, the program, or anything else outside the template. -/
def Obligations.NoSideEffects : Prop :=
  ∀ (i : Instr) (s t : State), exec i s = .next t →
    (∀ r, r ≠ i.rd → t.reg r = s.reg r) ∧ (i.op = .out → ∀ r, t.reg r = s.reg r) ∧
    (i.op ≠ .out → t.latch = s.latch) ∧ t.fault = s.fault ∧ SameSurroundings s t

/-- R17: what an instruction computes depends on nothing but its destination's old value and its operand's value: in two
states that agree on these two (and on the build-time parameters), it leaves the same value in its destination and OUT
the same value in the latch, whatever else differs. No instruction reads `latch`, `cycles`, `pc` or `fault`. -/
def Obligations.ResultDependsOnlyOnOperands : Prop :=
  ∀ (i : Instr) (s s' t t' : State), s.params = s'.params → s.reg i.rd = s'.reg i.rd →
    (∀ o, i.operand = some o → s.operandValue o = s'.operandValue o) →
    exec i s = .next t → exec i s' = .next t' →
    t.reg i.rd = t'.reg i.rd ∧ (i.op = .out → t.latch = t'.latch)

/-- R89: the next state of the block is a function of its state, the sampled ports and the build-time parameters: states
that agree on these step to states that agree, raising the same exception if any. -/
def Obligations.StepIsAFunctionOfBlockAndPorts : Prop :=
  ∀ s s' t : State, SameBlock s s' → s'.params = s.params → s'.sample = s.sample → step s = .next t →
    ∃ t', step s' = .next t' ∧ SameBlock t t' ∧ t'.raised = t.raised

/-- R96: tracing enabled or disabled, the block does the same; and an illegal word emits no trace record. -/
def Obligations.TracingChangesNothing : Prop :=
  (∀ (s t : State) (b : Bool), step s = .next t →
    ∃ t', step { s with tracing := b } = .next t' ∧ SameBlock t t' ∧ t'.raised = t.raised) ∧
  (∀ s t : State, step s = .next t → t.raised ≠ none → t.traceOut = none)

/-- R92: with tracing enabled, a step that executes an instruction emits one record: the counter after its increment, the
decoded instruction, the presented word, and the registers and the latch after the step. -/
def Obligations.TraceRecordContents : Prop :=
  ∀ (s : State) (i : Instr), s.tracing = true → s.sample.rst = false → s.fault = false →
    s.sample.instrValid = true → decode s.params s.sample.instr = .instr i →
    ∃ t r, step s = .next t ∧ t.traceOut = some r ∧ r.cycle = s.cycles + 1 ∧ r.instr = i ∧
      r.word = s.sample.instr ∧ r.x = t.x ∧ r.latch = t.latch

/-! ### What each instruction does -/

/-- R84 (R100, R101, R102): OUT copies the working value to the latch and leaves the register file; NEG writes
`(~v + 1)` truncated to 8 bits; NOT writes the bitwise complement. Nothing else changes. -/
def Obligations.UnaryInstructionResults : Prop :=
  ∀ (rd : Reg) (s : State),
    (∃ t, exec (.out rd) s = .next t ∧ WritesLatch s t (s.reg rd)) ∧
    (∃ t, exec (.neg rd) s = .next t ∧ WritesRegister s t rd ((256 - (s.reg rd).toNat) % 256)) ∧
    (∃ t, exec (.not rd) s = .next t ∧ WritesRegister s t rd (255 - (s.reg rd).toNat))

/-- R101, corner cases (a) to (c), C4: NEG twice gives every value back; 0x00 and 0x80 are its only fixed points; and it
negates the signed reading of every value but 0x80. -/
def Obligations.NegIsAnInvolution : Prop :=
  ∀ (rd : Reg) (s : State),
    ∃ t u, exec (.neg rd) s = .next t ∧ exec (.neg rd) t = .next u ∧ u.reg rd = s.reg rd ∧ u.cycles = s.cycles + 2 ∧
      (t.reg rd = s.reg rd ↔ s.reg rd = 0x00 ∨ s.reg rd = 0x80) ∧
      (s.reg rd ≠ 0x80 → s8 (t.reg rd) = -s8 (s.reg rd))

/-- R103: MOV writes its operand, an immediate or a register, and changes nothing else. -/
def Obligations.MovCopiesOperand : Prop :=
  ∀ (rd : Reg) (s : State),
    (∀ n : Byte, ∃ t, exec (.mov rd (.imm n)) s = .next t ∧ WritesRegister s t rd n.toNat) ∧
    (∀ rs : Reg, ∃ t, exec (.mov rd (.reg rs)) s = .next t ∧ WritesRegister s t rd (s.reg rs).toNat)

/-- R104: ADD writes `(wv + opv) mod 256` and changes nothing else: no flag, no exception. -/
def Obligations.AddWraps : Prop :=
  ∀ (rd : Reg) (src : Operand) (s : State),
    ∃ t, exec (.add rd src) s = .next t ∧
      WritesRegister s t rd (((s.reg rd).toNat + (s.operandValue src).toNat) % 256)

/-- R105: SUB writes `(wv - opv) mod 256`, the destination minus the operand, and changes nothing else. -/
def Obligations.SubWraps : Prop :=
  ∀ (rd : Reg) (src : Operand) (s : State),
    ∃ t v, exec (.sub rd src) s = .next t ∧ WritesRegister s t rd v ∧
      (v : Int) = (((s.reg rd).toNat : Int) - ((s.operandValue src).toNat : Int)) % 256

/-- R106: MUL writes the low 8 bits of the product and changes nothing else. -/
def Obligations.MulKeepsLowByte : Prop :=
  ∀ (rd : Reg) (src : Operand) (s : State),
    ∃ t, exec (.mul rd src) s = .next t ∧
      WritesRegister s t rd (((s.reg rd).toNat * (s.operandValue src).toNat) % 256)

/-- R109, R104 (f), R106 (f): ADD, SUB and MUL are right mod 256 under the signed reading of their operands too. -/
def Obligations.SignedReadingsAgree : Prop :=
  ∀ (rd : Reg) (src : Operand) (s : State),
    (∃ t, exec (.add rd src) s = .next t ∧
      (s8 (t.reg rd) - (s8 (s.reg rd) + s8 (s.operandValue src))) % 256 = 0) ∧
    (∃ t, exec (.sub rd src) s = .next t ∧
      (s8 (t.reg rd) - (s8 (s.reg rd) - s8 (s.operandValue src))) % 256 = 0) ∧
    (∃ t, exec (.mul rd src) s = .next t ∧
      (s8 (t.reg rd) - s8 (s.reg rd) * s8 (s.operandValue src)) % 256 = 0)

/-- R107: IMUL under `SignBitOr` multiplies bits [6:0], keeps 7 bits, and puts the XOR of the signs in bit 7. -/
def Obligations.ImulSignBitOrFormula : Prop :=
  ∀ (rd : Reg) (src : Operand) (s : State), s.params.imul = .signBitOr →
    ∃ t, exec (.imul rd src) s = .next t ∧
      WritesRegister s t rd
        (((s.reg rd).toNat / 128 + (s.operandValue src).toNat / 128) % 2 * 128
          + ((s.reg rd).toNat % 128) * ((s.operandValue src).toNat % 128) % 128)

/-- R107, corner case (g): under `SignBitOr`, a true signed product in [-127, 127] that is not 0 comes out exact, and so
does -128; a zero product of operands whose signs differ comes out as 0x80. -/
def Obligations.ImulExactWhenInRange : Prop :=
  ∀ (rd : Reg) (src : Operand) (s : State), s.params.imul = .signBitOr →
    ∃ t, exec (.imul rd src) s = .next t ∧
      (-128 ≤ s8 (s.reg rd) * s8 (s.operandValue src) → s8 (s.reg rd) * s8 (s.operandValue src) ≤ 127 →
        s8 (s.reg rd) * s8 (s.operandValue src) ≠ 0 →
        s8 (t.reg rd) = s8 (s.reg rd) * s8 (s.operandValue src)) ∧
      (s8 (s.reg rd) * s8 (s.operandValue src) = 0 → (s.reg rd).msb ≠ (s.operandValue src).msb → t.reg rd = 0x80)

/-- R108: IMUL under `TwosNegate` multiplies the absolute values of the signed readings, keeps 7 bits, and negates the
result where the signs differ. -/
def Obligations.ImulTwosNegateFormula : Prop :=
  ∀ (rd : Reg) (src : Operand) (s : State), s.params.imul = .twosNegate →
    ∃ t v, exec (.imul rd src) s = .next t ∧ WritesRegister s t rd v ∧
      v = (if (s.reg rd).msb = (s.operandValue src).msb then
          (s8 (s.reg rd)).natAbs * (s8 (s.operandValue src)).natAbs % 128
        else (256 - (s8 (s.reg rd)).natAbs * (s8 (s.operandValue src)).natAbs % 128) % 256)

/-- R108: the two IMUL modes differ exactly on the pairs whose signs differ and whose magnitude product is 0 mod 128; on
each of those `SignBitOr` gives 0x80 and `TwosNegate` 0x00. -/
def Obligations.ImulModesDivergeExactly : Prop :=
  ∀ (rd : Reg) (src : Operand) (s : State),
    ∃ t u, exec (.imul rd src) { s with params := { s.params with imul := .signBitOr } } = .next t ∧
      exec (.imul rd src) { s with params := { s.params with imul := .twosNegate } } = .next u ∧
      (t.reg rd ≠ u.reg rd ↔ (s.reg rd).msb ≠ (s.operandValue src).msb ∧
        (s8 (s.reg rd)).natAbs * (s8 (s.operandValue src)).natAbs % 128 = 0) ∧
      (t.reg rd ≠ u.reg rd → t.reg rd = 0x80 ∧ u.reg rd = 0x00)

/-- R110 to R112: AND, OR and XOR write the bitwise result and change nothing else. -/
def Obligations.LogicIsBitwise : Prop :=
  ∀ (rd : Reg) (src : Operand) (s : State),
    (∃ t, exec (.and rd src) s = .next t ∧
      WritesRegister s t rd ((s.reg rd).toNat &&& (s.operandValue src).toNat)) ∧
    (∃ t, exec (.or rd src) s = .next t ∧
      WritesRegister s t rd ((s.reg rd).toNat ||| (s.operandValue src).toNat)) ∧
    (∃ t, exec (.xor rd src) s = .next t ∧
      WritesRegister s t rd ((s.reg rd).toNat ^^^ (s.operandValue src).toNat))

/-- R113: SHL writes `(wv * 2^n) mod 256` for the whole operand `n`, never masked, and changes nothing else. -/
def Obligations.ShlByAmount : Prop :=
  ∀ (rd : Reg) (src : Operand) (s : State), s.params.shiftGe8 = .zero ∨ (s.operandValue src).toNat < 8 →
    ∃ t, exec (.shl rd src) s = .next t ∧
      WritesRegister s t rd ((s.reg rd).toNat * 2 ^ (s.operandValue src).toNat % 256)

/-- R114: SHR writes `floor(wv / 2^n)` for the whole operand `n`, never masked, and changes nothing else; bit 7 of the
result is 0 for every `n >= 1`. -/
def Obligations.ShrByAmount : Prop :=
  ∀ (rd : Reg) (src : Operand) (s : State), s.params.shiftGe8 = .zero ∨ (s.operandValue src).toNat < 8 →
    ∃ t, exec (.shr rd src) s = .next t ∧
      WritesRegister s t rd ((s.reg rd).toNat / 2 ^ (s.operandValue src).toNat) ∧
      (1 ≤ (s.operandValue src).toNat → (t.reg rd).msb = false)

/-- R115: a shift by 8 or more completes: under `SHIFT_GE8 = Zero` both shifts write 0x00; under `Opaque` they write what
an uninterpreted function of (wv, n) gives, for whatever function that is, and change nothing else. -/
def Obligations.ShiftsByEightOrMore : Prop :=
  ∀ (rd : Reg) (src : Operand) (s : State), 8 ≤ (s.operandValue src).toNat →
    (s.params.shiftGe8 = .zero →
      (∃ t, exec (.shl rd src) s = .next t ∧ WritesRegister s t rd 0) ∧
      (∃ t, exec (.shr rd src) s = .next t ∧ WritesRegister s t rd 0)) ∧
    (s.params.shiftGe8 = .uninterpreted →
      (∃ t, exec (.shl rd src) s = .next t ∧
        WritesRegister s t rd (Config.shlGe8 (s.reg rd) (s.operandValue src)).toNat) ∧
      (∃ t, exec (.shr rd src) s = .next t ∧
        WritesRegister s t rd (Config.shrGe8 (s.reg rd) (s.operandValue src)).toNat))

/-- R83: the operand's value is the immediate, or the register's value before the write; with `rs = rd` it is the working
value. -/
def Obligations.OperandValueForms : Prop :=
  ∀ (s : State) (rd rs : Reg) (n : Byte),
    s.operandValue (.imm n) = n ∧ s.operandValue (.reg rs) = s.reg rs ∧
    (∃ t, exec (.mov rd (.reg rs)) s = .next t ∧ t.reg rd = s.reg rs) ∧
    (∃ t, exec (.add rd (.reg rd)) s = .next t ∧ (t.reg rd).toNat = ((s.reg rd).toNat + (s.reg rd).toNat) % 256)

/-- R137: with the same register as destination and operand, both reads see the old value (under either IMUL_MODE, and
under either SHIFT_GE8, where the shift's value for an amount of 8 or more is the free one of log 12). -/
def Obligations.SameRegisterOperandsUseOldValue : Prop :=
  ∀ (r : Reg) (s : State),
    (∃ t, exec (.add r (.reg r)) s = .next t ∧ (t.reg r).toNat = 2 * (s.reg r).toNat % 256) ∧
    (∃ t, exec (.sub r (.reg r)) s = .next t ∧ t.reg r = 0) ∧
    (∃ t, exec (.xor r (.reg r)) s = .next t ∧ t.reg r = 0) ∧
    (∃ t, exec (.imul r (.reg r)) s = .next t ∧ (t.reg r).toNat = (s.reg r).toNat * (s.reg r).toNat % 128) ∧
    (∃ t, exec (.shl r (.reg r)) s = .next t ∧
      (s.params.shiftGe8 = .zero ∨ (s.reg r).toNat < 8 →
        (t.reg r).toNat = (s.reg r).toNat * 2 ^ (s.reg r).toNat % 256) ∧
      (s.params.shiftGe8 = .uninterpreted → 8 ≤ (s.reg r).toNat → t.reg r = Config.shlGe8 (s.reg r) (s.reg r)))

/-- R103 (c), R105 (e), R110 to R112: instructions that do the same in every state. -/
def Obligations.EquivalentInstructions : Prop :=
  ∀ (r : Reg) (s : State),
    exec (.xor r (.imm 0xFF)) s = exec (.not r) s ∧
    (∀ n : Byte, exec (.sub r (.imm n)) s = exec (.add r (.imm (-n))) s) ∧
    exec (.sub r (.reg r)) s = exec (.mov r (.imm 0)) s ∧
    exec (.xor r (.reg r)) s = exec (.mov r (.imm 0)) s ∧
    exec (.and r (.imm 0)) s = exec (.mov r (.imm 0)) s ∧
    exec (.mul r (.imm 0)) s = exec (.mov r (.imm 0)) s ∧
    exec (.and r (.reg r)) s = exec (.mov r (.reg r)) s ∧
    exec (.or r (.reg r)) s = exec (.mov r (.reg r)) s ∧
    exec (.add r (.imm 0)) s = exec (.mov r (.reg r)) s

/-! ### Encoding and decoding -/

/-- R59: under either ENC_MODE and every OPCODE_MAP without clashes, decoding what the encoder wrote gives the
instruction back, with every operand. -/
def Obligations.DecodeEncodeRoundTrip : Prop :=
  ∀ (p : Params) (m : EncMode), p.enc = .mode m → codesDistinct m p.map = true →
    ∀ i : Instr, decode p (encode m p.map i) = .instr i

/-- R50 (and R52 for the 6-bit field): the word is `F*2048 + rd*512 + i*256 + v`, field by field, with `F` the code mod 32
under `Truncate5`; no field spills into another, and the word fits. -/
def Obligations.EncodeIsFieldSum : Prop :=
  ∀ (m : EncMode) (map : OpcodeMap) (i : Instr),
    ∃ F, (m = .truncate5 → F = (map.code i.op).toNat % 32) ∧ (m = .widen6 → F = (map.code i.op).toNat) ∧
      (i.operand = none → (encode m map i).toNat = F * 2048 + i.rd.code * 512) ∧
      (∀ n, i.operand = some (.imm n) → (encode m map i).toNat = F * 2048 + i.rd.code * 512 + 256 + n.toNat) ∧
      (∀ rs, i.operand = some (.reg rs) → (encode m map i).toNat = F * 2048 + i.rd.code * 512 + rs.code) ∧
      wordFits m (encode m map i) = true

/-- R51, R52: the field codes of the spec's map, operation by operation, under both modes; each names one operation. -/
def Obligations.FieldCodeTable : Prop :=
  Operation.all.map (fun op => (op, fieldCode .truncate5 .default op, fieldCode .widen6 .default op)) =
    [(.mov, 0, 0), (.add, 1, 1), (.sub, 2, 2), (.xor, 3, 35), (.shl, 4, 36), (.shr, 5, 37), (.mul, 6, 6),
     (.imul, 7, 7), (.and, 8, 8), (.or, 9, 9), (.out, 10, 10), (.neg, 11, 11), (.not, 12, 12)] ∧
  codesDistinct .truncate5 .default = true ∧ codesDistinct .widen6 .default = true

/-- R58, R62: a word is illegal exactly when its opcode field holds no legal value, 13 to 31 under `Truncate5` and the
51 others under `Widen6`; every other word decodes to an instruction. -/
def Obligations.IllegalWordsAreExactlyTheOtherFields : Prop :=
  (∀ w : Word, wordFits .truncate5 w = true →
    (0x6800 ≤ w.toNat → decode .default w = .illegal) ∧
    (w.toNat < 0x6800 → ∃ i, decode .default w = .instr i)) ∧
  (∀ w : Word,
    (w.toNat / 2048 ∉ [0, 1, 2, 6, 7, 8, 9, 10, 11, 12, 35, 36, 37] →
      decode { Params.default with enc := .mode .widen6 } w = .illegal) ∧
    (w.toNat / 2048 ∈ [0, 1, 2, 6, 7, 8, 9, 10, 11, 12, 35, 36, 37] →
      ∃ i, decode { Params.default with enc := .mode .widen6 } w = .instr i))

/-- R55, R56: a register operand is the code in `w[1:0]`; the encoder writes 0 in `w[7:2]` of a register operand and in
`w[8:0]` of a unary word, and the decoder ignores those bits: whatever they hold, the word decodes to the same
instruction. -/
def Obligations.DontCareBitsAreIgnored : Prop :=
  (∀ (p : Params) (w w' : Word) (i : Instr), decode p w = .instr i →
    (i.operand = none → w'.toNat / 512 = w.toNat / 512 → decode p w' = .instr i) ∧
    (∀ rs, i.operand = some (.reg rs) → rs.code = w.toNat % 4 ∧
      (w'.toNat / 256 = w.toNat / 256 → w'.toNat % 4 = w.toNat % 4 → decode p w' = .instr i))) ∧
  (∀ (m : EncMode) (map : OpcodeMap) (i : Instr),
    (i.operand = none → (encode m map i).toNat % 512 = 0) ∧
    (∀ rs, i.operand = some (.reg rs) → (encode m map i).toNat % 256 / 4 = 0))

/-- R93: a decoded word and the encoding of what it decodes to differ only in the don't-care bits of R55 and R56. -/
def Obligations.EncodeOfDecodedClearsDontCareBits : Prop :=
  ∀ (p : Params) (m : EncMode) (w : Word) (i : Instr), p.enc = .mode m → decode p w = .instr i →
    (i.operand = none → (encode m p.map i).toNat = w.toNat / 512 * 512) ∧
    (∀ n, i.operand = some (.imm n) → encode m p.map i = w) ∧
    (∀ rs, i.operand = some (.reg rs) → (encode m p.map i).toNat = w.toNat / 256 * 256 + w.toNat % 4)

/-- Words written out from the spec's encodings (R62, R100 to R114 and 95_test_vectors.md section 2), one per operation,
the two ends of the illegal range, and the `Widen6` words of XOR, SHL and SHR. -/
def Obligations.SpecWordsDecode : Prop :=
  [0x0105, 0x0A02, 0x1301, 0x1FFF, 0x2200, 0x2D01, 0x3514, 0x3BFD, 0x410F, 0x4A02, 0x5600, 0x5C00, 0x67FF, 0x6800,
    0xFFFF].map (decode .default) =
    [.instr (.mov .a (.imm 0x05)), .instr (.add .b (.reg .c)), .instr (.sub .b (.imm 0x01)),
     .instr (.xor .d (.imm 0xFF)), .instr (.shl .b (.reg .a)), .instr (.shr .c (.imm 0x01)),
     .instr (.mul .c (.imm 0x14)), .instr (.imul .b (.imm 0xFD)), .instr (.and .a (.imm 0x0F)),
     .instr (.or .b (.reg .c)), .instr (.out .d), .instr (.neg .c), .instr (.not .d), .illegal, .illegal] ∧
  [0x119FF, 0x12301, 0x12C03, 0x01800].map (decode { Params.default with enc := .mode .widen6 }) =
    [.instr (.xor .a (.imm 0xFF)), .instr (.shl .b (.imm 0x01)), .instr (.shr .c (.reg .d)), .illegal]

/-- 95_test_vectors.md section 6: the low 16 bits of each `Widen6` word are the `Truncate5` word. -/
def Obligations.Widen6KeepsTheLowBits : Prop :=
  ∀ (map : OpcodeMap) (i : Instr), (encode .widen6 map i).toNat % 65536 = (encode .truncate5 map i).toNat

/-! ### Runs -/

/-- R132: every run starts with a reset, and no state carries from one run to the next: whatever the block's state, the
step after a launch of `P` leaves it as at the start of a run of `P`, with nothing raised or traced. -/
def Obligations.LaunchStartsFresh : Prop :=
  ∀ (s : State) (P : List Word), ∃ t, step (launch s P) = .next t ∧ SameBlock (startRun s.params P) t ∧
    t.program = P ∧ t.params = s.params ∧ Sequenced t ∧ Consistent t

/-- R79, R90, R91: from any state in the midst of a run, if every word still to come is legal, the run completes after
one step per word, each counted. -/
def Obligations.LegalRunCompletes : Prop :=
  ∀ s : State, Sequenced s → s.fault = false → (∀ w ∈ s.program.drop s.pc, Legal s.params w) →
    ∃ t, run (s.program.length - s.pc) s = .next t ∧ Completed t ∧
      t.cycles = s.cycles + (s.program.length - s.pc)

/-- R121: the fault is precise. If the first illegal word still to come is at index `k`, every instruction before it
completes (`u`), the step that meets it changes no state but the fault bit (`t`), and no later step changes any. -/
def Obligations.RunStopsAtFirstIllegalWord : Prop :=
  ∀ (s : State) (k : Nat) (w : Word), Sequenced s → s.fault = false → s.pc ≤ k → s.program[k]? = some w →
    decode s.params w = .illegal →
    (∀ j v, s.pc ≤ j → j < k → s.program[j]? = some v → Legal s.params v) →
    ∃ u t, run (k - s.pc) s = .next u ∧ u.fault = false ∧ u.pc = k ∧ u.cycles = s.cycles + (k - s.pc) ∧
      run (k - s.pc + 1) s = .next t ∧ Faulted t ∧ t.raised = some (.illegalInstruction w k) ∧
      t.x = u.x ∧ t.latch = u.latch ∧ t.cycles = u.cycles ∧ t.pc = k ∧
      ∀ n, ∃ t', run (k - s.pc + 1 + n) s = .next t' ∧ SameBlock t t'

/-- R90, R91: every run ends, completed or faulted, after at most as many steps as words are left. That a faulted run's
`pc` is the index of the illegal word is said by `RunStopsAtFirstIllegalWord`. -/
def Obligations.EveryRunEnds : Prop :=
  ∀ s : State, Sequenced s → Decodable s.params → (∀ w ∈ s.program, Fits s.params w) →
    ∃ k t, k ≤ s.program.length - s.pc ∧ run k s = .next t ∧ (Completed t ∨ Faulted t) ∧ ¬(Completed t ∧ Faulted t)

/-! ### The toolchain -/

/-- R63, R64: the lookups are case-insensitive over the 13 mnemonics and the four letters, a name outside the vocabulary
fails by name, and the inverses give every register and every operation back, in either letter case. -/
def Obligations.TextFunctionsRoundTrip : Prop :=
  (∀ name op, operationFromText name = .ok op ↔ mnemonicText op = name.map Char.toLower) ∧
  (∀ name, (∀ op, mnemonicText op ≠ name.map Char.toLower) →
    operationFromText name = .error (.unknownOperation name)) ∧
  (∀ name r, registerFromText name = .ok r ↔ registerToText r = name.map Char.toUpper) ∧
  (∀ name, (∀ r, registerToText r ≠ name.map Char.toUpper) → registerFromText name = .error (.unknownRegister name)) ∧
  (∀ r : Reg, registerFromText (registerToText r) = .ok r) ∧
  (∀ (c : LetterCase) (op : Operation), operationFromText (operationToText c op) = .ok op)

/-- R68: a line in the wrong arity form for its mnemonic fails: a unary one with a comma before its comment (the form
`out A, B`), a binary one with none (the form `mov A`); and "parsing never emits an Instruction with arity mismatch
between opcode and supplied operand count". -/
def Obligations.ArityIsEnforced : Prop :=
  (∀ (ov : LiteralOverflow) (line : List Char) (op : Operation),
    operationFromText ((skipWs line).takeWhile Char.isAlpha) = .ok op →
    (op.arity = .unary → ',' ∈ line.takeWhile (fun c => c != ';') → ∃ col, parseLine ov line = .error col) ∧
    (op.arity = .binary → ',' ∉ line.takeWhile (fun c => c != ';') → ∃ col, parseLine ov line = .error col)) ∧
  (∀ (ov : LiteralOverflow) (text : List Char) (rs : List InstrRecord),
    parse ov text = .ok rs → ∀ r ∈ rs, r.wf = true)

/-- R69: a blank line and a comment-only line contribute no instruction, and a comment may follow an instruction on its
line. -/
def Obligations.CommentsAreLegal : Prop :=
  (∀ (ov : LiteralOverflow) (blank : List Char), blank.all isWs = true → parseLine ov blank = .ok none) ∧
  (∀ (ov : LiteralOverflow) (blank comment : List Char), blank.all isWs = true →
    parseLine ov (blank ++ ';' :: comment) = .ok none) ∧
  (∀ (ov : LiteralOverflow) (line comment : List Char) (r : InstrRecord), ';' ∉ line →
    parseLine ov line = .ok (some r) → parseLine ov (line ++ ';' :: comment) = .ok (some r))

/-- R74: the parser answers all of its instructions, in source line order and without the empty lines, or nothing; and
the first line that fails, numbered from 1, is the one it names, with a column numbered from 1 (which column of the line is
the model's choice, log 14). -/
def Obligations.ParserIsAllOrNothing : Prop :=
  ∀ (ov : LiteralOverflow) (text : List Char),
    (∀ rs, parse ov text = .ok rs →
      (∀ l ∈ sourceLines text, ∃ r, parseLine ov l = .ok r) ∧
      rs = (sourceLines text).flatMap (fun l => match parseLine ov l with
        | .ok r => r.toList
        | .error _ => [])) ∧
    (∀ k l col, (sourceLines text)[k]? = some l → parseLine ov l = .error col →
      (∀ j l', j < k → (sourceLines text)[j]? = some l' → ∃ r, parseLine ov l' = .ok r) →
      parse ov text = .error (.syntaxError (k + 1) col) ∧ 1 ≤ col)

/-- R71 to R73: a literal's magnitude up to 255 is its immediate, and with a minus sign `(256 - m) mod 256`; above 255 it
is refused under `Reject`. For every byte the literal in hexadecimal digits with the suffix `h` is read back. -/
def Obligations.LiteralValues : Prop :=
  (∀ (ov : LiteralOverflow) (m : Nat), m ≤ 255 →
    ∃ a b, literalImmediate ov false m = some a ∧ a.toNat = m ∧
      literalImmediate ov true m = some b ∧ b.toNat = (256 - m) % 256) ∧
  (∀ (minus : Bool) (m : Nat), 255 < m → literalImmediate .reject minus m = none) ∧
  (∀ (ov : LiteralOverflow) (n : Byte),
    operandOfToken ov (hexDigits 2 n.toNat ++ ['h']) = some (.imm n) ∧
    operandOfToken ov ('-' :: (hexDigits 2 n.toNat ++ ['h'])) = some (.imm (-n)))

/-- R77: the reader gives back the words a listing was written from, under either mode and any one-line marker. -/
def Obligations.ListingRoundTrip : Prop :=
  ∀ (m : EncMode) (marker : List Char) (ws : List Word), '\n' ∉ marker → (∀ w ∈ ws, wordFits m w = true) →
    readListing marker m (writeListing marker m ws) = .ok ws

/-- R116: "there is no invalid instruction reachable once parsing has succeeded". Under either mode and every map without
clashes, the words the assembler makes of any text it accepts run to completion from reset, one step per instruction. -/
def Obligations.AssembledProgramCompletes : Prop :=
  ∀ (p : Params) (m : EncMode) (ov : LiteralOverflow) (text : List Char) (ws : List Word),
    p.enc = .mode m → codesDistinct m p.map = true → assemble ov m p.map text = .ok ws →
    ∃ t rs, parse ov text = .ok rs ∧ ws.length = rs.length ∧
      run ws.length (startRun p ws) = .next t ∧ Completed t ∧ t.cycles = rs.length
end

