-- ==== Sys2Proof/Laws/Bytes.lean ====
section
/-! SUPPORT. What each datapath function gives as a number (spec/00_scope.md R7), so that no proof unfolds it. -/

namespace Sys2Proof.Machine

/-- The signed reading of a byte, by cases on its value (R7). -/
theorem s8_eq (v : Byte) : s8 v = if v.toNat < 128 then (v.toNat : Int) else v.toNat - 256 := by
  have hm : v.msb = decide (128 ≤ v.toNat) := by simpa using BitVec.msb_eq_decide v
  rw [s8, hm]
  by_cases h : 128 ≤ v.toNat
  · simp [h, Nat.not_lt.mpr h]
  · simp [h, Nat.lt_of_not_le h]

theorem negByte_toNat (v : Byte) : (negByte v).toNat = (256 - v.toNat) % 256 := by
  have := v.isLt
  simp only [negByte, BitVec.toNat_ofNat]
  omega

theorem notByte_toNat (v : Byte) : (notByte v).toNat = 255 - v.toNat := by
  have := v.isLt
  simp only [notByte, BitVec.toNat_ofNat]
  omega

theorem addByte_toNat (wv opv : Byte) : (addByte wv opv).toNat = (wv.toNat + opv.toNat) % 256 := by
  simp [addByte]

theorem subByte_toNat (wv opv : Byte) : (subByte wv opv).toNat = (256 + wv.toNat - opv.toNat) % 256 := by
  have := wv.isLt
  have := opv.isLt
  simp only [subByte, BitVec.toNat_ofInt]
  omega

theorem mulByte_toNat (wv opv : Byte) : (mulByte wv opv).toNat = wv.toNat * opv.toNat % 256 := by
  simp [mulByte]

theorem imulSignBitOr_toNat (wv opv : Byte) :
    (imulSignBitOr wv opv).toNat
      = (wv.msb ^^ opv.msb).toNat * 128 + (wv.toNat % 128) * (opv.toNat % 128) % 128 := by
  have h1 := Bool.toNat_le (wv.msb ^^ opv.msb)
  have h2 := Nat.mod_lt ((wv.toNat % 128) * (opv.toNat % 128)) (by decide : 0 < 128)
  simp only [imulSignBitOr, BitVec.toNat_ofNat]
  omega

theorem imulTwosNegate_toNat (wv opv : Byte) :
    (imulTwosNegate wv opv).toNat
      = if wv.msb ^^ opv.msb then (256 - magnitude wv * magnitude opv % 128) % 256
        else magnitude wv * magnitude opv % 128 := by
  have h := Nat.mod_lt (magnitude wv * magnitude opv) (by decide : 0 < 128)
  simp only [imulTwosNegate, BitVec.toNat_ofNat]
  split <;> omega

/-- The magnitude of R108 is the absolute value of the signed reading. -/
theorem magnitude_eq_natAbs (v : Byte) : magnitude v = (s8 v).natAbs := by
  have := v.isLt
  have hm := BitVec.msb_eq_decide v
  simp only [magnitude, s8]
  cases h : v.msb <;> simp only [h] at hm ⊢ <;> simp at hm ⊢
  omega

/-- `wv * 2^n` is 0 mod 256 from `n = 8` on, so the formula of R113 gives what `SHIFT_GE8 = Zero` asks (R115). -/
theorem shl_formula_ge8 (wv n : Nat) (h : 8 ≤ n) : wv * 2 ^ n % 256 = 0 := by
  obtain ⟨k, rfl⟩ := Nat.exists_eq_add_of_le h
  rw [Nat.pow_add, ← Nat.mul_assoc, Nat.mul_comm wv, Nat.mul_assoc]
  exact Nat.mul_mod_right 256 (wv * 2 ^ k)

/-- A byte shifted right by 8 or more is 0 (R115). -/
theorem shr_formula_ge8 (wv n : Nat) (hw : wv < 256) (h : 8 ≤ n) : wv / 2 ^ n = 0 :=
  Nat.div_eq_of_lt (Nat.lt_of_lt_of_le hw (Nat.pow_le_pow_right (by decide) h : 2 ^ 8 ≤ 2 ^ n))

theorem shlByte_toNat (ge8 : ShiftGe8) (wv n : Byte) (h : ge8 = .zero ∨ n.toNat < 8) :
    (shlByte ge8 wv n).toNat = wv.toNat * 2 ^ n.toNat % 256 := by
  have : ¬(ge8 = .uninterpreted ∧ 8 ≤ n.toNat) := by
    rintro ⟨rfl, h8⟩
    rcases h with h | h
    · cases h
    · omega
  simp [shlByte, this]

theorem shrByte_toNat (ge8 : ShiftGe8) (wv n : Byte) (h : ge8 = .zero ∨ n.toNat < 8) :
    (shrByte ge8 wv n).toNat = wv.toNat / 2 ^ n.toNat := by
  have hn : ¬(ge8 = .uninterpreted ∧ 8 ≤ n.toNat) := by
    rintro ⟨rfl, h8⟩
    rcases h with h | h
    · cases h
    · omega
  have hlt : wv.toNat / 2 ^ n.toNat < 2 ^ 8 := Nat.lt_of_le_of_lt (Nat.div_le_self _ _) wv.isLt
  simp only [shrByte, hn, if_false, BitVec.toNat_ofNat]
  exact Nat.mod_eq_of_lt hlt

theorem shlByte_uninterpreted (wv n : Byte) (h : 8 ≤ n.toNat) :
    shlByte .uninterpreted wv n = Config.shlGe8 wv n := by
  simp [shlByte, h]

theorem shrByte_uninterpreted (wv n : Byte) (h : 8 ≤ n.toNat) :
    shrByte .uninterpreted wv n = Config.shrGe8 wv n := by
  simp [shrByte, h]

end Sys2Proof.Machine
end

