-- ==== Sys2Proof/Laws/Decode.lean ====
section
/-! SUPPORT. The fields of words, and the lookup of an operation. -/

namespace Sys2Proof

theorem Reg.code_lt (r : Reg) : r.code < 4 := by cases r <;> decide

@[simp] theorem Reg.ofCode_code (r : Reg) : Reg.ofCode r.code = r := by cases r <;> rfl

theorem Reg.ofCode_mod (n : Nat) : Reg.ofCode (n % 4) = Reg.ofCode n := by
  simp [Reg.ofCode]

theorem Reg.code_ofCode (n : Nat) : (Reg.ofCode n).code = n % 4 := by
  have h : n % 4 = 0 ∨ n % 4 = 1 ∨ n % 4 = 2 ∨ n % 4 = 3 := by omega
  rcases h with h | h | h | h <;> simp [Reg.ofCode, Reg.code, h]

theorem fieldCode_lt (m : EncMode) (map : OpcodeMap) (op : Operation) : fieldCode m map op < 64 := by
  have := (map.code op).isLt
  cases m <;> simp only [fieldCode] <;> omega

theorem fieldCode_truncate5_lt (map : OpcodeMap) (op : Operation) : fieldCode .truncate5 map op < 32 :=
  Nat.mod_lt _ (by decide)

theorem operandBits_lt (o : Option Operand) : operandBits o < 512 := by
  rcases o with _ | n | r
  · decide
  · have := n.isLt
    simp only [operandBits]
    omega
  · have := r.code_lt
    simp only [operandBits]
    omega

/-- A record of an instruction names an operation of the list. -/
theorem Operation.mem_all (op : Operation) : op ∈ Operation.all := by cases op <;> decide

/-- The fields of a word, as quotients and remainders of its value. -/
theorem rdField_eq (w : Word) : rdField w = Reg.ofCode (w.toNat / 512) := by
  rw [rdField, ← Reg.ofCode_mod (w.toNat / 512)]
  rfl

theorem opField_truncate5 (w : Word) : opField .truncate5 w = w.toNat / 2048 % 32 := rfl

theorem opField_widen6 (w : Word) : opField .widen6 w = w.toNat / 2048 := by
  have := w.isLt
  simp only [opField, bits]
  omega

theorem operandField_eq (w : Word) :
    operandField w
      = if w.toNat / 256 % 2 = 1 then .imm (BitVec.ofNat 8 w.toNat) else .reg (Reg.ofCode w.toNat) := by
  have h8 : bits w 8 8 = w.toNat / 256 % 2 := rfl
  have hv : BitVec.ofNat 8 (bits w 7 0) = BitVec.ofNat 8 w.toNat := by
    apply BitVec.eq_of_toNat_eq
    simp [bits]
  have hr : Reg.ofCode (bits w 1 0) = Reg.ofCode w.toNat := by
    rw [← Reg.ofCode_mod w.toNat]
    simp [bits]
  rw [operandField, h8, hv, hr]

/-- Where field codes are distinct, the operations at an operation's own field code are that operation alone. -/
theorem operationsAt_fieldCode (m : EncMode) (map : OpcodeMap) (h : codesDistinct m map = true) (op : Operation) :
    operationsAt m map (fieldCode m map op) = [op] := by
  have hinj : ∀ x ∈ Operation.all, ∀ y ∈ Operation.all, fieldCode m map x = fieldCode m map y → x = y :=
    fun x hx y hy => List.inj_on_of_nodup_map (of_decide_eq_true h) hx hy
  have hcongr : operationsAt m map (fieldCode m map op) = Operation.all.filter (fun q => q == op) := by
    unfold operationsAt
    refine List.filter_congr fun q hq => ?_
    rw [Bool.eq_iff_iff, beq_iff_eq, beq_iff_eq]
    exact ⟨fun e => hinj q hq op op.mem_all e, fun e => e ▸ rfl⟩
  rw [hcongr]
  cases op <;> decide

/-- An operation found at a field code has it. -/
theorem fieldCode_of_operationsAt (m : EncMode) (map : OpcodeMap) (F : Nat) (op : Operation)
    (h : operationsAt m map F = [op]) : fieldCode m map op = F := by
  have : op ∈ operationsAt m map F := by simp [h]
  simpa [operationsAt] using (List.mem_filter.mp this).2

/-- Everything a decoded instruction says of the word it came from. -/
theorem decodeMode_instr (m : EncMode) (map : OpcodeMap) (w : Word) (i : Instr) (h : decodeMode m map w = .instr i) :
    wordFits m w = true ∧
      ∃ op, operationsAt m map (opField m w) = [op] ∧ i = instrOf op (rdField w) (operandField w) := by
  unfold decodeMode at h
  split at h
  · next hfit =>
    split at h
    · cases h
    · next op hop =>
      cases h
      exact ⟨hfit, op, hop, rfl⟩
    · cases h
  · cases h

/-- Under a mode the spec defines, a decoded instruction came from that mode's decoder. -/
theorem decode_mode (p : Params) (m : EncMode) (w : Word) (h : p.enc = .mode m) : decode p w = decodeMode m p.map w := by
  simp [decode, h]

end Sys2Proof
end

