-- ==== Sys2Proof/Laws/State.lean ====
section
/-! SUPPORT. One lemma per field per update of State, so that no proof unfolds a record update. -/

namespace Sys2Proof.Machine

/-! ### setReg -/

@[simp] theorem State.setReg_x (s : State) (r : Reg) (v : Byte) : (s.setReg r v).x = s.x.set r v := rfl
@[simp] theorem State.setReg_latch (s : State) (r : Reg) (v : Byte) : (s.setReg r v).latch = s.latch := rfl
@[simp] theorem State.setReg_cycles (s : State) (r : Reg) (v : Byte) : (s.setReg r v).cycles = s.cycles := rfl
@[simp] theorem State.setReg_pc (s : State) (r : Reg) (v : Byte) : (s.setReg r v).pc = s.pc := rfl
@[simp] theorem State.setReg_fault (s : State) (r : Reg) (v : Byte) : (s.setReg r v).fault = s.fault := rfl
@[simp] theorem State.setReg_raised (s : State) (r : Reg) (v : Byte) : (s.setReg r v).raised = s.raised := rfl
@[simp] theorem State.setReg_traceOut (s : State) (r : Reg) (v : Byte) : (s.setReg r v).traceOut = s.traceOut := rfl
@[simp] theorem State.setReg_program (s : State) (r : Reg) (v : Byte) : (s.setReg r v).program = s.program := rfl
@[simp] theorem State.setReg_inputs (s : State) (r : Reg) (v : Byte) : (s.setReg r v).inputs = s.inputs := rfl
@[simp] theorem State.setReg_tracing (s : State) (r : Reg) (v : Byte) : (s.setReg r v).tracing = s.tracing := rfl
@[simp] theorem State.setReg_params (s : State) (r : Reg) (v : Byte) : (s.setReg r v).params = s.params := rfl

/-! ### setLatch -/

@[simp] theorem State.setLatch_x (s : State) (v : Byte) : (s.setLatch v).x = s.x := rfl
@[simp] theorem State.setLatch_latch (s : State) (v : Byte) : (s.setLatch v).latch = v := rfl
@[simp] theorem State.setLatch_cycles (s : State) (v : Byte) : (s.setLatch v).cycles = s.cycles := rfl
@[simp] theorem State.setLatch_pc (s : State) (v : Byte) : (s.setLatch v).pc = s.pc := rfl
@[simp] theorem State.setLatch_fault (s : State) (v : Byte) : (s.setLatch v).fault = s.fault := rfl
@[simp] theorem State.setLatch_raised (s : State) (v : Byte) : (s.setLatch v).raised = s.raised := rfl
@[simp] theorem State.setLatch_traceOut (s : State) (v : Byte) : (s.setLatch v).traceOut = s.traceOut := rfl
@[simp] theorem State.setLatch_program (s : State) (v : Byte) : (s.setLatch v).program = s.program := rfl
@[simp] theorem State.setLatch_inputs (s : State) (v : Byte) : (s.setLatch v).inputs = s.inputs := rfl
@[simp] theorem State.setLatch_tracing (s : State) (v : Byte) : (s.setLatch v).tracing = s.tracing := rfl
@[simp] theorem State.setLatch_params (s : State) (v : Byte) : (s.setLatch v).params = s.params := rfl

/-! ### retire -/

@[simp] theorem State.retire_x (s : State) : (s.retire).x = s.x := rfl
@[simp] theorem State.retire_latch (s : State) : (s.retire).latch = s.latch := rfl
@[simp] theorem State.retire_cycles (s : State) : (s.retire).cycles = s.cycles + 1 := rfl
@[simp] theorem State.retire_pc (s : State) : (s.retire).pc = s.pc + 1 := rfl
@[simp] theorem State.retire_fault (s : State) : (s.retire).fault = s.fault := rfl
@[simp] theorem State.retire_raised (s : State) : (s.retire).raised = s.raised := rfl
@[simp] theorem State.retire_traceOut (s : State) : (s.retire).traceOut = s.traceOut := rfl
@[simp] theorem State.retire_program (s : State) : (s.retire).program = s.program := rfl
@[simp] theorem State.retire_inputs (s : State) : (s.retire).inputs = s.inputs := rfl
@[simp] theorem State.retire_tracing (s : State) : (s.retire).tracing = s.tracing := rfl
@[simp] theorem State.retire_params (s : State) : (s.retire).params = s.params := rfl

/-! ### takeException -/

@[simp] theorem State.takeException_x (s : State) (e : Fault) : (s.takeException e).x = s.x := rfl
@[simp] theorem State.takeException_latch (s : State) (e : Fault) : (s.takeException e).latch = s.latch := rfl
@[simp] theorem State.takeException_cycles (s : State) (e : Fault) : (s.takeException e).cycles = s.cycles := rfl
@[simp] theorem State.takeException_pc (s : State) (e : Fault) : (s.takeException e).pc = s.pc := rfl
@[simp] theorem State.takeException_fault (s : State) (e : Fault) : (s.takeException e).fault = true := rfl
@[simp] theorem State.takeException_raised (s : State) (e : Fault) : (s.takeException e).raised = some e := rfl
@[simp] theorem State.takeException_traceOut (s : State) (e : Fault) : (s.takeException e).traceOut = s.traceOut := rfl
@[simp] theorem State.takeException_program (s : State) (e : Fault) : (s.takeException e).program = s.program := rfl
@[simp] theorem State.takeException_inputs (s : State) (e : Fault) : (s.takeException e).inputs = s.inputs := rfl
@[simp] theorem State.takeException_tracing (s : State) (e : Fault) : (s.takeException e).tracing = s.tracing := rfl
@[simp] theorem State.takeException_params (s : State) (e : Fault) : (s.takeException e).params = s.params := rfl

/-! ### resetBlock -/

@[simp] theorem State.resetBlock_x (s : State) : (s.resetBlock).x = .zero := rfl
@[simp] theorem State.resetBlock_latch (s : State) : (s.resetBlock).latch = 0 := rfl
@[simp] theorem State.resetBlock_cycles (s : State) : (s.resetBlock).cycles = 0 := rfl
@[simp] theorem State.resetBlock_pc (s : State) : (s.resetBlock).pc = 0 := rfl
@[simp] theorem State.resetBlock_fault (s : State) : (s.resetBlock).fault = false := rfl
@[simp] theorem State.resetBlock_raised (s : State) : (s.resetBlock).raised = s.raised := rfl
@[simp] theorem State.resetBlock_traceOut (s : State) : (s.resetBlock).traceOut = s.traceOut := rfl
@[simp] theorem State.resetBlock_program (s : State) : (s.resetBlock).program = s.program := rfl
@[simp] theorem State.resetBlock_inputs (s : State) : (s.resetBlock).inputs = s.inputs := rfl
@[simp] theorem State.resetBlock_tracing (s : State) : (s.resetBlock).tracing = s.tracing := rfl
@[simp] theorem State.resetBlock_params (s : State) : (s.resetBlock).params = s.params := rfl

/-! ### beginStep -/

@[simp] theorem State.beginStep_x (s : State) : (s.beginStep).x = s.x := rfl
@[simp] theorem State.beginStep_latch (s : State) : (s.beginStep).latch = s.latch := rfl
@[simp] theorem State.beginStep_cycles (s : State) : (s.beginStep).cycles = s.cycles := rfl
@[simp] theorem State.beginStep_pc (s : State) : (s.beginStep).pc = s.pc := rfl
@[simp] theorem State.beginStep_fault (s : State) : (s.beginStep).fault = s.fault := rfl
@[simp] theorem State.beginStep_raised (s : State) : (s.beginStep).raised = none := rfl
@[simp] theorem State.beginStep_traceOut (s : State) : (s.beginStep).traceOut = none := rfl
@[simp] theorem State.beginStep_program (s : State) : (s.beginStep).program = s.program := rfl
@[simp] theorem State.beginStep_inputs (s : State) : (s.beginStep).inputs = s.inputs.tail := rfl
@[simp] theorem State.beginStep_tracing (s : State) : (s.beginStep).tracing = s.tracing := rfl
@[simp] theorem State.beginStep_params (s : State) : (s.beginStep).params = s.params := rfl

/-! ### emitTrace -/

@[simp] theorem State.emitTrace_x (s : State) (i : Instr) (w : Word) : (s.emitTrace i w).x = s.x := by
  unfold State.emitTrace; split <;> rfl
@[simp] theorem State.emitTrace_latch (s : State) (i : Instr) (w : Word) : (s.emitTrace i w).latch = s.latch := by
  unfold State.emitTrace; split <;> rfl
@[simp] theorem State.emitTrace_cycles (s : State) (i : Instr) (w : Word) : (s.emitTrace i w).cycles = s.cycles := by
  unfold State.emitTrace; split <;> rfl
@[simp] theorem State.emitTrace_pc (s : State) (i : Instr) (w : Word) : (s.emitTrace i w).pc = s.pc := by
  unfold State.emitTrace; split <;> rfl
@[simp] theorem State.emitTrace_fault (s : State) (i : Instr) (w : Word) : (s.emitTrace i w).fault = s.fault := by
  unfold State.emitTrace; split <;> rfl
@[simp] theorem State.emitTrace_raised (s : State) (i : Instr) (w : Word) : (s.emitTrace i w).raised = s.raised := by
  unfold State.emitTrace; split <;> rfl
@[simp] theorem State.emitTrace_program (s : State) (i : Instr) (w : Word) : (s.emitTrace i w).program = s.program := by
  unfold State.emitTrace; split <;> rfl
@[simp] theorem State.emitTrace_inputs (s : State) (i : Instr) (w : Word) : (s.emitTrace i w).inputs = s.inputs := by
  unfold State.emitTrace; split <;> rfl
@[simp] theorem State.emitTrace_tracing (s : State) (i : Instr) (w : Word) : (s.emitTrace i w).tracing = s.tracing := by
  unfold State.emitTrace; split <;> rfl
@[simp] theorem State.emitTrace_params (s : State) (i : Instr) (w : Word) : (s.emitTrace i w).params = s.params := by
  unfold State.emitTrace; split <;> rfl
theorem State.emitTrace_traceOut (s : State) (i : Instr) (w : Word) :
    (s.emitTrace i w).traceOut = if s.tracing then some ⟨s.cycles, i, w, s.x, s.latch⟩ else s.traceOut := by
  unfold State.emitTrace; split <;> rfl

/-! ### reading a register -/

@[simp] theorem RegFile.get_set_same (x : RegFile) (r : Reg) (v : Byte) : (x.set r v).get r = v := by
  cases r <;> rfl

theorem RegFile.get_set_other (x : RegFile) (r q : Reg) (v : Byte) (h : q ≠ r) : (x.set r v).get q = x.get q := by
  cases r <;> cases q <;> first | rfl | exact absurd rfl h

@[simp] theorem RegFile.get_zero (r : Reg) : RegFile.zero.get r = 0 := by cases r <;> rfl

/-- Two register files that read the same are the same. -/
theorem RegFile.eq_of_get (x y : RegFile) (h : ∀ r, x.get r = y.get r) : x = y := by
  obtain ⟨a, b, c, d⟩ := x
  have ha := h .a
  have hb := h .b
  have hc := h .c
  have hd := h .d
  simp_all [RegFile.get]

@[simp] theorem State.reg_setReg_same (s : State) (r : Reg) (v : Byte) : (s.setReg r v).reg r = v := by
  simp [State.reg]

theorem State.reg_setReg_other (s : State) (r q : Reg) (v : Byte) (h : q ≠ r) : (s.setReg r v).reg q = s.reg q := by
  simp [State.reg, RegFile.get_set_other, h]

@[simp] theorem State.reg_setLatch (s : State) (v : Byte) (r : Reg) : (s.setLatch v).reg r = s.reg r := rfl
@[simp] theorem State.reg_retire (s : State) (r : Reg) : s.retire.reg r = s.reg r := rfl
@[simp] theorem State.reg_takeException (s : State) (e : Fault) (r : Reg) : (s.takeException e).reg r = s.reg r := rfl
@[simp] theorem State.reg_resetBlock (s : State) (r : Reg) : s.resetBlock.reg r = 0 := by simp [State.reg]
@[simp] theorem State.reg_beginStep (s : State) (r : Reg) : s.beginStep.reg r = s.reg r := rfl
@[simp] theorem State.reg_emitTrace (s : State) (i : Instr) (w : Word) (r : Reg) : (s.emitTrace i w).reg r = s.reg r := by
  simp [State.reg]

@[simp] theorem State.operandValue_imm (s : State) (n : Byte) : s.operandValue (.imm n) = n := rfl
@[simp] theorem State.operandValue_reg (s : State) (r : Reg) : s.operandValue (.reg r) = s.reg r := rfl
@[simp] theorem State.operandValue_beginStep (s : State) (o : Operand) : s.beginStep.operandValue o = s.operandValue o := by
  cases o <;> rfl

end Sys2Proof.Machine
end

