-- ==== Sys2Proof/Laws/Exec.lean ====
section
/-! SUPPORT. What the shared operations do, said once: the two templates, OUT, and what any executed instruction can be
(`exec_cases`). -/

namespace Sys2Proof.Machine

open Sys2Proof.Safety

/-- The state after a register write and the end of the instruction is one that `WritesRegister` describes. -/
theorem writesRegister_setReg_retire (s : State) (rd : Reg) (v : Byte) :
    WritesRegister s (s.setReg rd v).retire rd v.toNat where
  value := by simp
  others r h := by simp [State.reg_setReg_other _ _ _ _ h]
  latch := rfl
  cycles := rfl
  pc := rfl
  fault := rfl
  surroundings := ⟨rfl, rfl, rfl, rfl, rfl, rfl⟩

/-- The unary template writes `f(wv)` to the destination and nothing else. -/
theorem unaryOp_writes (f : Byte → Byte) (rd : Reg) (s : State) :
    ∃ t, unaryOp f rd s = .next t ∧ WritesRegister s t rd (f (s.reg rd)).toNat :=
  ⟨_, rfl, writesRegister_setReg_retire s rd _⟩

/-- The binary template writes `f(wv, opv)` to the destination and nothing else. -/
theorem binaryOp_writes (f : Byte → Byte → Byte) (rd : Reg) (src : Operand) (s : State) :
    ∃ t, binaryOp f rd src s = .next t ∧ WritesRegister s t rd (f (s.reg rd) (s.operandValue src)).toNat :=
  ⟨_, rfl, writesRegister_setReg_retire s rd _⟩

/-! Each instruction is its shared operation. -/

theorem exec_mov (rd : Reg) (src : Operand) (s : State) :
    exec (.mov rd src) s = binaryOp (fun _ opv => opv) rd src s := rfl

theorem exec_add (rd : Reg) (src : Operand) (s : State) :
    exec (.add rd src) s = binaryOp addByte rd src s := rfl

theorem exec_sub (rd : Reg) (src : Operand) (s : State) :
    exec (.sub rd src) s = binaryOp subByte rd src s := rfl

theorem exec_xor (rd : Reg) (src : Operand) (s : State) :
    exec (.xor rd src) s = binaryOp (fun wv opv => wv ^^^ opv) rd src s := rfl

theorem exec_shl (rd : Reg) (src : Operand) (s : State) :
    exec (.shl rd src) s = binaryOp (shlByte s.params.shiftGe8) rd src s := rfl

theorem exec_shr (rd : Reg) (src : Operand) (s : State) :
    exec (.shr rd src) s = binaryOp (shrByte s.params.shiftGe8) rd src s := rfl

theorem exec_mul (rd : Reg) (src : Operand) (s : State) :
    exec (.mul rd src) s = binaryOp mulByte rd src s := rfl

theorem exec_imul (rd : Reg) (src : Operand) (s : State) :
    exec (.imul rd src) s = binaryOp (imulByte s.params.imul) rd src s := rfl

theorem exec_and (rd : Reg) (src : Operand) (s : State) :
    exec (.and rd src) s = binaryOp (fun wv opv => wv &&& opv) rd src s := rfl

theorem exec_or (rd : Reg) (src : Operand) (s : State) :
    exec (.or rd src) s = binaryOp (fun wv opv => wv ||| opv) rd src s := rfl

theorem exec_neg (rd : Reg) (s : State) : exec (.neg rd) s = unaryOp negByte rd s := rfl

theorem exec_not (rd : Reg) (s : State) : exec (.not rd) s = unaryOp notByte rd s := rfl

theorem exec_out (rd : Reg) (s : State) : exec (.out rd) s = .next (s.setLatch (s.reg rd)).retire := rfl

/-- Everything an executed instruction can do: OUT copies its register to the latch, and any other writes one value to
its destination. -/
theorem exec_cases (i : Instr) (s : State) :
    (∃ rd, i = .out rd ∧ exec i s = .next (s.setLatch (s.reg rd)).retire) ∨
    (i.op ≠ .out ∧ ∃ v, exec i s = .next (s.setReg i.rd v).retire) := by
  cases i with
  | out rd => exact .inl ⟨rd, rfl, rfl⟩
  | _ => exact .inr ⟨by simp [Instr.op, Instr.record], _, rfl⟩

/-- Two instructions that apply the same result to the same register do the same. -/
theorem binaryOp_eq_of_result (f g : Byte → Byte → Byte) (rd : Reg) (o p : Operand) (s : State)
    (h : f (s.reg rd) (s.operandValue o) = g (s.reg rd) (s.operandValue p)) :
    binaryOp f rd o s = binaryOp g rd p s := by
  simp only [binaryOp, h]

end Sys2Proof.Machine
end

