-- ==== Sys2Proof/Laws/PerInstr.lean ====
section
/-! SUPPORT. What holds of every instruction as syntax: its record is well formed (R48, R78) and gives it back, and so do
its operation and the two fields the decoder builds it from (R57). -/

namespace Sys2Proof.Laws.RecordRoundTrip

/-- The record of the instruction is well formed and stands for it, and `instrOf` rebuilds it from its own fields. -/
def Statement (i : Instr) : Prop :=
  i.wf = true ∧ i.record.toInstr = some i ∧ ∀ o, (i.operand = none ∨ i.operand = some o) → instrOf i.op i.rd o = i

theorem binary_fields (i : Instr) (src : Operand) (hi : i.operand = some src) (h : instrOf i.op i.rd src = i) (o : Operand)
    (ho : i.operand = none ∨ i.operand = some o) : instrOf i.op i.rd o = i := by
  rw [hi] at ho
  rcases ho with ho | ho
  · cases ho
  · cases ho
    exact h

theorem mov (rd : Reg) (src : Operand) : Statement (.mov rd src) := ⟨rfl, rfl, binary_fields _ src rfl rfl⟩
theorem add (rd : Reg) (src : Operand) : Statement (.add rd src) := ⟨rfl, rfl, binary_fields _ src rfl rfl⟩
theorem sub (rd : Reg) (src : Operand) : Statement (.sub rd src) := ⟨rfl, rfl, binary_fields _ src rfl rfl⟩
theorem xor (rd : Reg) (src : Operand) : Statement (.xor rd src) := ⟨rfl, rfl, binary_fields _ src rfl rfl⟩
theorem shl (rd : Reg) (src : Operand) : Statement (.shl rd src) := ⟨rfl, rfl, binary_fields _ src rfl rfl⟩
theorem shr (rd : Reg) (src : Operand) : Statement (.shr rd src) := ⟨rfl, rfl, binary_fields _ src rfl rfl⟩
theorem mul (rd : Reg) (src : Operand) : Statement (.mul rd src) := ⟨rfl, rfl, binary_fields _ src rfl rfl⟩
theorem imul (rd : Reg) (src : Operand) : Statement (.imul rd src) := ⟨rfl, rfl, binary_fields _ src rfl rfl⟩
theorem and (rd : Reg) (src : Operand) : Statement (.and rd src) := ⟨rfl, rfl, binary_fields _ src rfl rfl⟩
theorem or (rd : Reg) (src : Operand) : Statement (.or rd src) := ⟨rfl, rfl, binary_fields _ src rfl rfl⟩
theorem out (rd : Reg) : Statement (.out rd) := ⟨rfl, rfl, fun _ _ => rfl⟩
theorem neg (rd : Reg) : Statement (.neg rd) := ⟨rfl, rfl, fun _ _ => rfl⟩
theorem not (rd : Reg) : Statement (.not rd) := ⟨rfl, rfl, fun _ _ => rfl⟩

end Sys2Proof.Laws.RecordRoundTrip
end

