-- ==== Sys2Proof/Laws/Step.lean ====
section
/-! SUPPORT. Everything one step can do, said once (`step_cases`), and how a run unfolds. -/

namespace Sys2Proof.Machine

open Sys2Proof.Safety

/-- With no explicit port sample pending, the ports carry the program's word at `pc`. -/
theorem State.sample_fetch (s : State) (w : Word) (hi : s.inputs = []) (hw : s.program[s.pc]? = some w) :
    s.sample = ⟨false, true, w⟩ := by
  simp [State.sample, State.fetch, hi, hw]

/-- With no explicit port sample pending and the program at its end, the ports carry no word. -/
theorem State.sample_end (s : State) (hi : s.inputs = []) (hw : s.program.length ≤ s.pc) :
    s.sample = ⟨false, false, 0⟩ := by
  simp [State.sample, State.fetch, hi, hw]

/-- No reset is sampled where none is pending. -/
theorem State.sample_rst_false (s : State) (h : ∀ p ∈ s.inputs, p.rst = false) : s.sample.rst = false := by
  unfold State.sample
  split
  · next p ps hp => exact h p (by simp [hp])
  · split <;> rfl

/-- Whatever a step answers is one of the actions of R30, or the refusal of a word that cannot be decoded. -/
theorem step_cases (s : State) :
    (s.sample.rst = true ∧ step s = .next s.beginStep.resetBlock) ∨
    (s.sample.rst = false ∧ s.fault = true ∧ step s = .next s.beginStep) ∨
    (s.sample.rst = false ∧ s.fault = false ∧ s.sample.instrValid = false ∧ step s = .next s.beginStep) ∨
    (s.sample.rst = false ∧ s.fault = false ∧ s.sample.instrValid = true ∧
      ((∃ why, decode s.params s.sample.instr = .refused why ∧ step s = .refused (.undecodable why)) ∨
       (decode s.params s.sample.instr = .illegal ∧
          step s = .next (s.beginStep.takeException (.illegalInstruction s.sample.instr s.pc))) ∨
       (∃ i t, decode s.params s.sample.instr = .instr i ∧ exec i s.beginStep = .next t ∧
          step s = .next (t.emitTrace i s.sample.instr)))) := by
  cases hr : s.sample.rst
  · cases hf : s.fault
    · cases hv : s.sample.instrValid
      · simp [step, blockStep, hr, hf, hv]
      · right; right; right
        refine ⟨rfl, rfl, rfl, ?_⟩
        cases hd : decode s.params s.sample.instr with
        | refused why => exact .inl ⟨why, rfl, by simp [step, blockStep, runWord, hr, hf, hv, hd]⟩
        | illegal => exact .inr (.inl ⟨rfl, by simp [step, blockStep, runWord, hr, hf, hv, hd]⟩)
        | instr i =>
          obtain ⟨t, ht⟩ : ∃ t, exec i s.beginStep = .next t := by
            rcases exec_cases i s.beginStep with ⟨_, _, h⟩ | ⟨_, _, h⟩ <;> exact ⟨_, h⟩
          exact .inr (.inr ⟨i, t, rfl, ht, by simp [step, blockStep, runWord, hr, hf, hv, hd, ht]⟩)
    · simp [step, blockStep, hr, hf]
  · simp [step, blockStep, hr]

/-- The word that `withFetchWord` places is the one the next step samples. -/
theorem State.withFetchWord_sample (s : State) (nbits w : Nat) :
    (s.withFetchWord nbits w).sample = ⟨false, true, BitVec.ofNat 17 (w % 2 ^ nbits)⟩ := by
  refine State.sample_fetch _ _ rfl ?_
  show (placeWord s.program s.pc _)[s.pc]? = _
  have hl : (s.program.take s.pc ++ List.replicate (s.pc - s.program.length) 0).length = s.pc := by
    simp only [List.length_append, List.length_take, List.length_replicate]
    omega
  rw [placeWord, List.getElem?_append_right (by omega), hl, Nat.sub_self]
  rfl

@[simp] theorem run_zero (s : State) : run 0 s = .next s := rfl

/-- A run of `k + 1` steps whose first step answers `t` goes on from `t`. -/
theorem run_succ_of_step (k : Nat) (s t : State) (h : step s = .next t) : run (k + 1) s = run k t := by
  simp [run, h]

/-- A run of `k + 1` steps that ends in a state took a first step. -/
theorem run_succ_next (k : Nat) (s t : State) (h : run (k + 1) s = .next t) :
    ∃ u, step s = .next u ∧ run k u = .next t := by
  rw [run] at h
  rcases hs : step s with u | e | e <;> rw [hs] at h
  · exact ⟨u, rfl, h⟩
  · cases h
  · cases h

/-- A run is cut at any step. -/
theorem run_add (j k : Nat) (s t : State) (h : run j s = .next t) : run (j + k) s = run k t := by
  induction j generalizing s with
  | zero =>
    cases h
    rw [Nat.zero_add]
  | succ j ih =>
    obtain ⟨u, hu, hr⟩ := run_succ_next j s t h
    rw [Nat.add_right_comm, run_succ_of_step _ _ _ hu]
    exact ih u hr

/-- A property that every step keeps holds after any run. -/
theorem run_keeps (P : State → Prop) (hstep : ∀ s t, P s → step s = .next t → P t) (k : Nat) (s t : State)
    (hs : P s) (h : run k s = .next t) : P t := by
  induction k generalizing s with
  | zero => cases h; exact hs
  | succ k ih =>
    obtain ⟨u, hu, hr⟩ := run_succ_next k s t h
    exact ih u (hstep s u hs hu) hr

/-- One more step of the host's run, for any machine. -/
theorem host_run_succ (M : Host.Core) (k : Nat) (s : M.State) :
    (∀ t, M.step s = .next t → M.run (k + 1) s = M.run k t) ∧
      (∀ e, M.step s = .fault e → M.run (k + 1) s = .fault e) ∧
      (∀ e, M.step s = .refused e → M.run (k + 1) s = .refused e) := by
  refine ⟨fun t h => ?_, fun e h => ?_, fun e h => ?_⟩ <;> simp [Host.Core.run, h]

/-- A run is the host's run of the machine behind its interface. -/
theorem run_eq_core (k : Nat) (s : State) : run k s = Sys2Proof.core.run k s := by
  induction k generalizing s with
  | zero => rfl
  | succ k ih =>
    have hc := host_run_succ Sys2Proof.core k s
    rcases hs : step s with t | e | e
    · rw [run_succ_of_step k s t hs, ih t]
      exact (hc.1 t hs).symm
    · exact (show run (k + 1) s = .fault e by simp [run, hs]).trans (hc.2.1 e hs).symm
    · exact (show run (k + 1) s = .refused e by simp [run, hs]).trans (hc.2.2 e hs).symm

end Sys2Proof.Machine
end

