-- ==== Sys2Proof/Machine/Flags.lean ====
section
/-! DEFINITION. The flags of the machine: there are none. "The block has no status flags or condition codes: no carry,
overflow, zero or sign flag is computed or stored" (spec/10_state.md R20), so this file declares nothing. -/
end

