-- ==== Sys2Proof/Tests/Slice0.lean ====
section
/-! SUPPORT. Tests. Expected results come from spec/95_test_vectors.md (the vector's id is in the comment) or from the
rule named; no test runs more than one step. The witnesses at the end show that each statement's hypotheses can be met. -/

namespace Sys2Proof.Tests

open Sys2Proof.Machine Sys2Proof.Safety

/-! ### Well-formedness: a term that each check refuses -/

theorem test_wf_refuses_unary_with_operand : InstrRecord.wf ⟨.out, .a, some (.reg .b)⟩ = false := by decide
theorem test_wf_refuses_binary_without_operand : InstrRecord.wf ⟨.mov, .a, none⟩ = false := by decide
theorem test_wf_accepts : InstrRecord.wf ⟨.neg, .d, none⟩ = true ∧ Instr.wf (.add .a (.imm 3)) = true := by decide
theorem test_fits_refuses_bit_16 : wordFits .truncate5 0x119FF = false ∧ wordFits .widen6 0x119FF = true := by decide
theorem test_distinct_refuses_clash :
    codesDistinct .truncate5 { OpcodeMap.default with mul := 3 } = false ∧
      codesDistinct .widen6 { OpcodeMap.default with mul := 3 } = true := by decide

/-! ### Decoding: words written out bit by bit from the field table of R49 (F, rd, i, v) -/

theorem test_decode_mov : decode .default 0b00000_00_1_00000101 = .instr (.mov .a (.imm 5)) := by decide
theorem test_decode_add : decode .default 0b00001_01_0_00000010 = .instr (.add .b (.reg .c)) := by decide
theorem test_decode_sub : decode .default 0b00010_01_1_00000001 = .instr (.sub .b (.imm 1)) := by decide
theorem test_decode_xor : decode .default 0b00011_11_1_11111111 = .instr (.xor .d (.imm 0xFF)) := by decide
theorem test_decode_shl : decode .default 0b00100_01_0_00000000 = .instr (.shl .b (.reg .a)) := by decide
theorem test_decode_shr : decode .default 0b00101_11_1_00000100 = .instr (.shr .d (.imm 4)) := by decide
theorem test_decode_mul : decode .default 0b00110_10_1_00010100 = .instr (.mul .c (.imm 20)) := by decide
theorem test_decode_imul : decode .default 0b00111_01_0_00000000 = .instr (.imul .b (.reg .a)) := by decide
theorem test_decode_and : decode .default 0b01000_00_1_00001111 = .instr (.and .a (.imm 15)) := by decide
theorem test_decode_or : decode .default 0b01001_10_0_00000011 = .instr (.or .c (.reg .d)) := by decide
theorem test_decode_out : decode .default 0b01010_11_0_00000000 = .instr (.out .d) := by decide
theorem test_decode_neg : decode .default 0b01011_10_0_00000000 = .instr (.neg .c) := by decide
theorem test_decode_not : decode .default 0b01100_11_1_11111111 = .instr (.not .d) := by decide

/-- DC3, DC5: ignored bits. -/
theorem test_decode_ignored_bits :
    decode .default 0x00FD = .instr (.mov .a (.reg .b)) ∧ decode .default 0x51FF = .instr (.out .a) := by decide

/-- DC10 to DC14: both sides of the end of the legal range. -/
theorem test_decode_illegal :
    [0x67FF, 0x6800, 0xF800, 0xFFFF].map (decode .default) = [.instr (.not .d), .illegal, .illegal, .illegal] := by decide

/-- DC15 to DC22: `Widen6`. -/
theorem test_decode_widen6 :
    [0x11800, 0x01800, 0x02000, 0x03000, 0x06000, 0x06800, 0x13000, 0x1FFFF].map
        (decode { Params.default with enc := .mode .widen6 }) =
      [.instr (.xor .a (.reg .a)), .illegal, .illegal, .instr (.mul .a (.reg .a)), .instr (.not .a), .illegal, .illegal,
       .illegal] := by decide

/-- The refusals of the decoder: R61, a word wider than the port, a map with a clash. -/
theorem test_decode_refusals :
    decode { Params.default with enc := .legacyBleed } 0 = .refused .legacyBleed ∧
      decode .default 0x10000 = .refused .wordTooWide ∧
      decode { Params.default with map := { OpcodeMap.default with mul := 3 } } 0x1800 = .refused .opcodeMapAmbiguous ∧
      decode { Params.default with map := { OpcodeMap.default with mul := 3 } } 0x0105 = .instr (.mov .a (.imm 5)) := by
  decide

/-- W10, T17, T5, U2, X3: encoded words. -/
theorem test_encode :
    encode .truncate5 .default (.sub .c (.imm 0x0F)) = 0x150F ∧ encode .truncate5 .default (.imul .b (.imm 0xFD)) = 0x3BFD ∧
      encode .truncate5 .default (.and .d (.imm 0)) = 0x4700 ∧ encode .truncate5 .default (.out .d) = 0x5600 ∧
      encode .widen6 .default (.shr .c (.reg .d)) = 0x12C03 := by decide

/-- The opcode table's `match` of NOT, SHL and IMUL, and an illegal word. -/
theorem test_table_word :
    decodeTableWord 16 0x6000 = some (.not .a) ∧ decodeTableWord 16 0x2000 = some (.shl .a (.reg .a)) ∧
      decodeTableWord 16 0x3800 = some (.imul .a (.reg .a)) ∧ decodeTableWord 16 0x6800 = none := by decide

/-! ### One step of each instruction -/

/-- A state with the given registers, `latch = 0x55`, `cycles = 9`, `pc = 9`. -/
def at9 (a b c d : Byte) : State := { State.reset with x := ⟨a, b, c, d⟩, latch := 0x55, cycles := 9, pc := 9 }

/-- The five fields of the block after one step on the word `w`. -/
def stepOn (s : State) (w : Nat) : Option (RegFile × Byte × Nat × Nat × Bool) :=
  match step (s.withFetchWord 16 w) with
  | .next t => some (t.x, t.latch, t.cycles, t.pc, t.fault)
  | .fault _ => none
  | .refused _ => none

/-- The registers after one executed instruction that is not OUT. -/
def ran (a b c d : Byte) : Option (RegFile × Byte × Nat × Nat × Bool) := some (⟨a, b, c, d⟩, 0x55, 10, 10, false)

theorem test_out_copies : stepOn (at9 0 0x2A 0 0) 0x5200 = some (⟨0, 0x2A, 0, 0⟩, 0x2A, 10, 10, false) := by decide -- U1
theorem test_out_unwritten : stepOn (at9 1 2 3 0) 0x5600 = some (⟨1, 2, 3, 0⟩, 0, 10, 10, false) := by decide -- U2
theorem test_neg : stepOn (at9 0 0 5 0) 0x5C00 = ran 0 0 0xFB 0 := by decide -- U7
theorem test_neg_fixed : stepOn (at9 0x80 0 0 0) 0x5800 = ran 0x80 0 0 0 := by decide -- U4
theorem test_not : stepOn (at9 0 0xA5 0 0) 0x6200 = ran 0 0x5A 0 0 := by decide -- U12
theorem test_mov_register : stepOn (at9 0 0x77 0x11 0) 0x0401 = ran 0 0x77 0x77 0 := by decide -- M3
theorem test_mov_immediate : stepOn (at9 0x12 0 0 0) 0x01FF = ran 0xFF 0 0 0 := by decide -- M2
theorem test_add_wraps : stepOn (at9 0xFF 0 0 0) 0x0901 = ran 0 0 0 0 := by decide -- AR1
theorem test_add_register : stepOn (at9 0 0xF0 0x20 0) 0x0A02 = ran 0 0x10 0x20 0 := by decide -- AR5
theorem test_sub_order : stepOn (at9 3 5 0 0) 0x1001 = ran 0xFE 5 0 0 := by decide -- AR9
theorem test_sub_borrow : stepOn (at9 0 0 0 0) 0x1301 = ran 0 0xFF 0 0 := by decide -- AR6
theorem test_mul_same : stepOn (at9 0xFF 0 0 0) 0x3000 = ran 1 0 0 0 := by decide -- AR10
theorem test_mul_wraps : stepOn (at9 0 0 0x0D 0) 0x3514 = ran 0 0 4 0 := by decide -- AR12
theorem test_imul_negative : stepOn (at9 5 0 0 0) 0x39FD = ran 0xF1 0 0 0 := by decide -- AR16
theorem test_imul_modes :
    stepOn (at9 0x40 0 0 0) 0x39FE = ran 0x80 0 0 0 ∧
      stepOn { at9 0x40 0 0 0 with params := { Params.default with imul := .twosNegate } } 0x39FE = ran 0 0 0 0 := by
  decide -- AR24, AR24t
theorem test_and : stepOn (at9 0xA5 0 0 0) 0x410F = ran 5 0 0 0 := by decide -- LG1
theorem test_or : stepOn (at9 0 0 0x50 0x0A) 0x4C03 = ran 0 0 0x5A 0x0A := by decide -- LG4
theorem test_xor : stepOn (at9 0x0F 0 0 0xFF) 0x1E00 = ran 0x0F 0 0 0xF0 := by decide -- LG8
theorem test_shl_same : stepOn (at9 3 0 0 0) 0x2000 = ran 0x18 0 0 0 := by decide -- S6
theorem test_shl_large : stepOn (at9 9 1 0 0) 0x2200 = ran 9 0 0 0 := by decide -- S7
theorem test_shr_logical : stepOn (at9 0xFE 0 0 0) 0x2901 = ran 0x7F 0 0 0 := by decide -- S9
theorem test_shr_unmasked : stepOn (at9 0xFF 0 0 0) 0x2920 = ran 0 0 0 0 := by decide -- S12

/-! ### The step around the instruction -/

/-- The output ports, the index and the exception after one step. -/
def stepOut (s : State) : Option (PortsOut × Nat × Option Fault) :=
  match step s with
  | .next t => some (t.outputs, t.pc, t.raised)
  | .fault _ => none
  | .refused _ => none

/-- The reset state with one port sample pending. -/
def sampled (rst valid : Bool) (w : Word) : State := { State.reset with inputs := [⟨rst, valid, w⟩] }

/-- EX8: the trace record carries the fetched word, don't-care bits and all. -/
theorem test_trace : stepOut (sampled false true 0x51FF) =
    some (⟨0, 0, 0, 0, 0, 1, false, false, some ⟨1, .out .a, 0x51FF, ⟨0, 0, 0, 0⟩, 0⟩⟩, 1, none) := by decide

/-- EX1: an idle step. -/
theorem test_idle : stepOut { at9 1 2 3 4 with inputs := [⟨false, false, 0x0105⟩] } =
    some (⟨0x55, 1, 2, 3, 4, 9, false, false, none⟩, 9, none) := by decide

/-- EX2, EX5: reset in the step that samples it, a held fault and a word notwithstanding. -/
theorem test_reset_step : stepOut { at9 1 2 3 4 with fault := true, inputs := [⟨true, true, 0x6800⟩] } =
    some (⟨0, 0, 0, 0, 0, 0, false, false, none⟩, 0, none) := by decide

/-- EX3, P4: an illegal word. -/
theorem test_illegal_word : stepOut (sampled false true 0x6800) =
    some (⟨0, 0, 0, 0, 0, 0, true, true, none⟩, 0, some (.illegalInstruction 0x6800 0)) := by decide

/-- EX4: a held fault. -/
theorem test_held_fault : stepOut { sampled false true 0x0105 with fault := true } =
    some (⟨0, 0, 0, 0, 0, 0, true, false, none⟩, 0, none) := by decide

/-- R23: no step is taken at `pc = N`. -/
theorem test_end_of_program : stepOut { State.reset with program := [0x0105], pc := 1, cycles := 1 } =
    some (⟨0, 0, 0, 0, 0, 1, false, false, none⟩, 1, none) := by decide

/-- X2: `Widen6` in the step. -/
theorem test_widen6_step :
    stepOut { at9 0 0x40 0 0 with
      params := { Params.default with enc := .mode .widen6 }, tracing := false, inputs := [⟨false, true, 0x12301⟩] } =
    some (⟨0x55, 0, 0x80, 0, 0, 10, false, false, none⟩, 10, none) := by decide

/-! ### The toolchain -/

/-- The words of a one-line program under the defaults. -/
def asm (t : String) : Except AsmError (List Word) := assemble .reject .truncate5 .default t.toList

/-- T2, T3, T4, T7, T9, T10, T12, T14, T16, T20, T21, T22. -/
theorem test_assemble :
    ["MOV a,5H", "  add b , 10b ; c", "sub C, 17o", "mov A, 1D", "mov A, ffh", "mov A, -255", "mov A, b", "mov A, bh",
        "mov A, 1bh", "Out   d  ; x", "mov A, 5h\r\n", "; only comment\n\n   "].map (fun t => (asm t).toOption) =
      [some [0x0105], some [0x0B02], some [0x150F], some [0x0101], some [0x01FF], some [0x0101], some [0x0001],
       some [0x010B], some [0x011B], some [0x5600], some [0x0105], some []] := by decide

/-- T23 to T35: SyntaxErrors. -/
theorem test_syntax_errors :
    ["mov A, 256", "mov A, -256", "mov A, 12b", "mov A, 8o", "mov A, ab", "mov A, -b", "movA, B", "mov A 5", "mov A, ",
        "mov A, 5 6", "nop A", "mov E, 1", "neg e", "out A, B", "mov A"].map (fun t => (asm t).toOption) =
      List.replicate 15 none := by decide

/-- W6 (scenario B), and the line of the first failure (R74). -/
theorem test_lines :
    (asm "mov B, 7\n; set up\n\nadd B, B").toOption = some [0x0307, 0x0A01] ∧
      (match parse .reject "neg A\nneg E\nneg F".toList with
        | .error (.syntaxError line _) => line
        | _ => 0) = 2 := by decide

/-- P6: a `Widen6` word does not fit a `Truncate5` reader (R77); digits in either case and unpadded are read. -/
theorem test_listing :
    (readListing [] .truncate5 "\n119ff\n".toList).toOption = none ∧
      (readListing [] .widen6 "\n119FF\n105".toList).toOption = some [0x119FF, 0x00105] ∧
      writeListing "m".toList .truncate5 [0x0105, 0x5000] = "m\n0105\n5000\n".toList := by decide

/-- R38: the two loader byte orders. -/
theorem test_loader_bytes :
    wordBytes .leastSignificantFirst .truncate5 0x0105 = [0x05, 0x01] ∧
      wordBytes .mostSignificantFirst .widen6 0x119FF = [0x01, 0x19, 0xFF] ∧
      bytesWord .mostSignificantFirst [0x01, 0x19, 0xFF] = 0x119FF := by decide

/-- R92, R94: field order and digit widths, in one style. -/
theorem test_render :
    renderTrace ⟨.lower, .lower, [' '], [' '], [',']⟩ (fun n => hexDigits 1 n) (fun n => hexDigits 2 n.toNat) .truncate5
        ⟨2, .add .a (.imm 3), 0x0903, ⟨8, 0, 0, 0⟩, 0⟩ = "2 add A,03 0903 08 00 00 00 00".toList := by decide

/-! ### Witnesses: the hypotheses of each statement can be met -/

/-- A state in the midst of a run of a legal and an illegal word. -/
def midRun : State := { startRun .default [0x0107, 0x6800, 0x0901] with pc := 1, cycles := 1, x := ⟨7, 0, 0, 0⟩ }

/-- A faulted state. -/
def faulted : State := { midRun with fault := true }

theorem witness_ResetStepZeroesTheBlock : ({ faulted with inputs := [⟨true, true, 0x0105⟩] } : State).sample.rst = true := by
  decide

theorem witness_BlockStepPrecedence :
    (sampled true false 0).sample.rst = true ∧
    (faulted.sample.rst = false ∧ faulted.fault = true) ∧
    ((sampled false false 0).sample.rst = false ∧ (sampled false false 0).fault = false ∧
      (sampled false false 0).sample.instrValid = false) ∧
    (midRun.sample.rst = false ∧ midRun.fault = false ∧ midRun.sample.instrValid = true ∧
      decode midRun.params midRun.sample.instr = .illegal) ∧
    ((sampled false true 0x67FF).sample.rst = false ∧ (sampled false true 0x67FF).fault = false ∧
      (sampled false true 0x67FF).sample.instrValid = true ∧
      decode (sampled false true 0x67FF).params (sampled false true 0x67FF).sample.instr = .instr (.not .d)) := by decide

theorem witness_SequencedStepRunsDecodedWord :
    (midRun.inputs = [] ∧ midRun.fault = false ∧ midRun.program[midRun.pc]? = some 0x6800 ∧
      decode midRun.params 0x6800 = .illegal) ∧
    ((startRun .default [0x67FF]).inputs = [] ∧ (startRun .default [0x67FF]).fault = false ∧
      (startRun .default [0x67FF]).program[(startRun .default [0x67FF]).pc]? = some 0x67FF ∧
      decode .default 0x67FF = .instr (.not .d)) := by decide

theorem witness_FaultBitRule :
    (∃ t, step midRun = .next t) ∧ (∃ t, step faulted = .next t) ∧ faulted.fault = true ∧ faulted.sample.rst = false :=
  ⟨⟨_, rfl⟩, ⟨_, rfl⟩, rfl, rfl⟩

theorem witness_HeldFaultFreezesTheBlock :
    (faulted.fault = true ∧ ∀ p ∈ faulted.inputs, p.rst = false) ∧
    (({ faulted with inputs := [⟨true, false, 0⟩] } : State).fault = true ∧
      ({ faulted with inputs := [⟨true, false, 0⟩] } : State).sample.rst = true) := by decide

theorem witness_IdleStepChangesNothing :
    (sampled false false 0xFFFF).sample.rst = false ∧ (sampled false false 0xFFFF).sample.instrValid = false := by decide

theorem witness_IllegalWordRaisesIllegalInstruction :
    (midRun.sample.rst = false ∧ midRun.sample.instrValid = true ∧ midRun.fault = false ∧
      decode midRun.params midRun.sample.instr = .illegal) ∧
    wordFits .truncate5 0xFFFF = true ∧ wordFits .truncate5 0x67FF = true := by decide

theorem midRun_consistent : Consistent midRun := ⟨rfl, by simp [midRun, startRun, State.reset], by simp [midRun, startRun, State.reset]⟩

theorem witness_StepKeepsConsistent : Consistent midRun ∧ ∃ t, step midRun = .next t := ⟨midRun_consistent, _, rfl⟩

theorem witness_SequencedStepStaysInProgram :
    (Sequenced midRun ∧ ∃ t, step midRun = .next t) ∧
      ((startRun .default []).inputs = [] ∧ (startRun .default []).pc = (startRun .default []).program.length) :=
  ⟨⟨⟨rfl, by decide⟩, _, rfl⟩, rfl, rfl⟩

theorem witness_CycleCounterNeverWrapsInARun : Sequenced midRun ∧ Consistent midRun ∧ ∃ t, run 1 midRun = .next t :=
  ⟨⟨rfl, by decide⟩, midRun_consistent, _, rfl⟩

theorem witness_StepKeepsProgramAndParameters : ∃ t, step midRun = .next t := ⟨_, rfl⟩

/-- A state whose parameters ask for the bleed reading. -/
def bleeding : State := { sampled false true 0 with params := { Params.default with enc := .legacyBleed } }

theorem witness_DecodableStepAlwaysAnswers :
    (Decodable midRun.params ∧ Fits midRun.params midRun.sample.instr) ∧ ∃ e, step bleeding = .refused e :=
  ⟨⟨⟨.truncate5, rfl, by decide⟩, .truncate5, rfl, by decide⟩, _, rfl⟩

theorem witness_LegacyBleedIsRefused :
    bleeding.params.enc = .legacyBleed ∧ bleeding.sample.rst = false ∧ bleeding.fault = false ∧
      bleeding.sample.instrValid = true := by decide

theorem witness_StepCountsExecutedInstructions :
    ((∃ t, step (sampled false true 0x0105) = .next t) ∧ (sampled false true 0x0105).sample.rst = false ∧
      (sampled false true 0x0105).fault = false ∧ (sampled false true 0x0105).sample.instrValid = true ∧
      Legal (sampled false true 0x0105).params (sampled false true 0x0105).sample.instr) ∧
    (∃ t, step faulted = .next t) ∧ faulted.sample.rst = false ∧ faulted.fault = true :=
  ⟨⟨⟨_, rfl⟩, rfl, rfl, rfl, .mov .a (.imm 5), by decide⟩, ⟨_, rfl⟩, rfl, rfl⟩

theorem witness_NoSideEffects :
    (∃ t, exec (.out .b) midRun = .next t) ∧ (Instr.out .b).op = .out ∧ (∃ t, exec (.neg .a) midRun = .next t) ∧
      (Instr.neg .a).op ≠ .out ∧ Reg.b ≠ (Instr.neg .a).rd :=
  ⟨⟨_, rfl⟩, rfl, ⟨_, rfl⟩, by decide, by decide⟩

theorem witness_ResultDependsOnlyOnOperands :
    ∃ t t', (at9 1 2 3 4).params = (at9 1 2 0 0).params ∧ (at9 1 2 3 4).reg .a = (at9 1 2 0 0).reg .a ∧
      (∀ o, (Instr.sub .a (.reg .b)).operand = some o → (at9 1 2 3 4).operandValue o = (at9 1 2 0 0).operandValue o) ∧
      exec (.sub .a (.reg .b)) (at9 1 2 3 4) = .next t ∧ exec (.sub .a (.reg .b)) (at9 1 2 0 0) = .next t' :=
  ⟨_, _, rfl, rfl, fun o ho => by cases ho; rfl, rfl, rfl⟩

theorem witness_StepIsAFunctionOfBlockAndPorts :
    SameBlock midRun { midRun with tracing := false, program := [0, 0x6800] } ∧
      ({ midRun with tracing := false, program := [0, 0x6800] } : State).params = midRun.params ∧
      ({ midRun with tracing := false, program := [0, 0x6800] } : State).sample = midRun.sample ∧
      ∃ t, step midRun = .next t :=
  ⟨⟨rfl, rfl, rfl, rfl, rfl⟩, rfl, by decide, _, rfl⟩

theorem witness_TracingChangesNothing : ∃ t, step midRun = .next t ∧ t.raised ≠ none := ⟨_, rfl, by decide⟩

theorem witness_TraceRecordContents :
    (sampled false true 0x51FF).tracing = true ∧ (sampled false true 0x51FF).sample.rst = false ∧
      (sampled false true 0x51FF).fault = false ∧ (sampled false true 0x51FF).sample.instrValid = true ∧
      decode (sampled false true 0x51FF).params (sampled false true 0x51FF).sample.instr = .instr (.out .a) := by decide

theorem witness_NegIsAnInvolution : (at9 0x7F 0 0 0).reg .a ≠ 0x80 := by decide

/-- IMUL: the default mode; products -128, -127 and 127 at the ends of the range, and a zero product of operands whose
signs differ. -/
theorem witness_ImulSignBitOr :
    (at9 0x80 1 0 0).params.imul = .signBitOr ∧
      (s8 ((at9 0x80 1 0 0).reg .a) * s8 ((at9 0x80 1 0 0).operandValue (.reg .b)) = -128) ∧
      (s8 ((at9 0x7F 1 0 0).reg .a) * s8 ((at9 0x7F 1 0 0).operandValue (.reg .b)) = 127) ∧
      (s8 ((at9 0x81 1 0 0).reg .a) * s8 ((at9 0x81 1 0 0).operandValue (.reg .b)) = -127) ∧
      (s8 ((at9 0 0xFF 0 0).reg .a) * s8 ((at9 0 0xFF 0 0).operandValue (.reg .b)) = 0 ∧
        ((at9 0 0xFF 0 0).reg .a).msb ≠ ((at9 0 0xFF 0 0).operandValue (.reg .b)).msb) := by decide

theorem witness_ImulTwosNegateFormula :
    ({ at9 0x80 0xFF 0 0 with params := { Params.default with imul := .twosNegate } } : State).params.imul = .twosNegate :=
  rfl

/-- A pair of the divergent set (R108), IMUL(0x40, 0xFE): the two modes leave different values. -/
theorem witness_ImulModesDivergeExactly :
    ((at9 0x40 0xFE 0 0).reg .a).msb ≠ ((at9 0x40 0xFE 0 0).operandValue (.reg .b)).msb ∧
      (s8 ((at9 0x40 0xFE 0 0).reg .a)).natAbs * (s8 ((at9 0x40 0xFE 0 0).operandValue (.reg .b))).natAbs % 128 = 0 := by
  decide

/-- Shifts: the default policy, an amount of 7 under the other, and amounts of 8 and 255 under each. -/
theorem witness_ShiftsAndSameRegister :
    (at9 1 8 0 0).params.shiftGe8 = .zero ∧ ((at9 1 8 0 0).operandValue (.imm 7)).toNat < 8 ∧
      1 ≤ ((at9 1 8 0 0).operandValue (.imm 7)).toNat ∧ 8 ≤ ((at9 1 8 0 0).operandValue (.reg .b)).toNat ∧
      8 ≤ ((at9 1 8 0 0).operandValue (.imm 255)).toNat ∧
      ({ at9 1 8 0 0 with params := { Params.default with shiftGe8 := .uninterpreted } } : State).params.shiftGe8
        = .uninterpreted := by decide

/-- Two sets of parameters that meet the round trip's hypotheses, one for each mode. -/
theorem witness_DecodeEncodeRoundTrip :
    (Params.default.enc = .mode .truncate5 ∧ codesDistinct .truncate5 Params.default.map = true) ∧
      (({ Params.default with enc := .mode .widen6 } : Params).enc = .mode .widen6 ∧
        codesDistinct .widen6 Params.default.map = true) := by decide

theorem witness_EncodeIsFieldSum :
    (Instr.out .d).operand = none ∧ (Instr.mov .d (.imm 255)).operand = some (.imm 255) ∧
      (Instr.mov .d (.reg .d)).operand = some (.reg .d) := by decide

theorem witness_IllegalWordsAreExactlyTheOtherFields :
    wordFits .truncate5 0x6800 = true ∧ 0x6800 ≤ (0x6800 : Word).toNat ∧ wordFits .truncate5 0x67FF = true ∧
      (0x67FF : Word).toNat < 0x6800 ∧
      (0x12FFF : Word).toNat / 2048 ∈ [0, 1, 2, 6, 7, 8, 9, 10, 11, 12, 35, 36, 37] ∧
      (0x13000 : Word).toNat / 2048 ∉ [0, 1, 2, 6, 7, 8, 9, 10, 11, 12, 35, 36, 37] := by decide

theorem witness_DontCareBitsAreIgnored :
    (decode .default 0x5000 = .instr (.out .a) ∧ (Instr.out .a).operand = none ∧
      (0x51FF : Word).toNat / 512 = (0x5000 : Word).toNat / 512) ∧
    (decode .default 0x0001 = .instr (.mov .a (.reg .b)) ∧ (Instr.mov .a (.reg .b)).operand = some (.reg .b) ∧
      (0x00FD : Word).toNat / 256 = (0x0001 : Word).toNat / 256 ∧ (0x00FD : Word).toNat % 4 = (0x0001 : Word).toNat % 4) := by
  decide

theorem witness_EncodeOfDecodedClearsDontCareBits :
    Params.default.enc = .mode .truncate5 ∧ decode .default 0x51FF = .instr (.out .a) ∧
      decode .default 0x01FF = .instr (.mov .a (.imm 255)) ∧ decode .default 0x00FD = .instr (.mov .a (.reg .b)) := by decide

/-- A run of two legal words, from its start. -/
def legalRun : State := startRun .default [0x0107, 0x67FF]

theorem witness_LegalRunCompletes :
    Sequenced legalRun ∧ legalRun.fault = false ∧ ∀ w ∈ legalRun.program.drop legalRun.pc, Legal legalRun.params w := by
  refine ⟨⟨rfl, by decide⟩, rfl, fun w hw => ?_⟩
  have h : w = 0x0107 ∨ w = 0x67FF := by simpa [legalRun, startRun, State.reset] using hw
  rcases h with rfl | rfl
  · exact ⟨.mov .a (.imm 7), by decide⟩
  · exact ⟨.not .d, by decide⟩

/-- The run of P4 from its start: the first illegal word is at index 1. -/
theorem witness_RunStopsAtFirstIllegalWord :
    ∃ s : State, Sequenced s ∧ s.fault = false ∧ s.pc ≤ 1 ∧ s.program[1]? = some 0x6800 ∧
      decode s.params 0x6800 = .illegal ∧
      ∀ j v, s.pc ≤ j → j < 1 → s.program[j]? = some v → Legal s.params v := by
  refine ⟨startRun .default [0x0107, 0x6800, 0x0901], ⟨rfl, by decide⟩, rfl, by decide, rfl, by decide, ?_⟩
  intro j v _ hj hv
  obtain rfl : j = 0 := by omega
  cases hv
  exact ⟨.mov .a (.imm 7), by decide⟩

theorem witness_EveryRunEnds : Sequenced midRun ∧ Decodable midRun.params ∧ ∀ w ∈ midRun.program, Fits midRun.params w := by
  have h : midRun.program.all (wordFits .truncate5) = true := by decide
  exact ⟨⟨rfl, by decide⟩, ⟨.truncate5, rfl, by decide⟩, fun w hw => ⟨.truncate5, rfl, List.all_eq_true.mp h w hw⟩⟩

theorem witness_TextFunctionsRoundTrip :
    (∀ op, mnemonicText op ≠ "nop".toList.map Char.toLower) ∧ (∀ r, registerToText r ≠ "e".toList.map Char.toUpper) :=
  ⟨fun op => by cases op <;> decide, fun r => by cases r <;> decide⟩

/-- The two forms R68 names, and a text that parses. -/
theorem witness_ArityIsEnforced :
    ((operationFromText ((skipWs "out A, B".toList).takeWhile Char.isAlpha)).toOption = some .out ∧
      Operation.arity .out = .unary ∧ ',' ∈ "out A, B".toList.takeWhile (fun c => c != ';')) ∧
    ((operationFromText ((skipWs "mov A ; ,".toList).takeWhile Char.isAlpha)).toOption = some .mov ∧
      Operation.arity .mov = .binary ∧ ',' ∉ "mov A ; ,".toList.takeWhile (fun c => c != ';')) ∧
    (parse .reject "neg A\nadd B, 3".toList).toOption = some [⟨.neg, .a, none⟩, ⟨.add, .b, some (.imm 3)⟩] := by
  decide

theorem ok_of_toOption {ε α : Type} (e : Except ε α) (a : α) (h : e.toOption = some a) : e = .ok a := by
  cases e <;> cases h
  rfl

theorem witness_ParserIsAllOrNothing :
    (∃ rs, parse .reject "neg A".toList = .ok rs) ∧
    ((sourceLines "neg A\nneg E".toList)[1]? = some "neg E".toList ∧
      (∃ col, parseLine .reject "neg E".toList = .error col) ∧
      ∀ j l', j < 1 → (sourceLines "neg A\nneg E".toList)[j]? = some l' → ∃ r, parseLine .reject l' = .ok r) := by
  refine ⟨⟨_, ok_of_toOption _ [⟨.neg, .a, none⟩] (by decide)⟩, by decide, ⟨5, by decide⟩, fun j l' hj hl => ?_⟩
  obtain rfl : j = 0 := by omega
  obtain rfl : "neg A".toList = l' := Option.some.inj ((by decide : some "neg A".toList = _).trans hl)
  exact ⟨some ⟨.neg, .a, none⟩, ok_of_toOption _ _ (by decide)⟩

theorem witness_CommentsAreLegal :
    [' ', '\t'].all isWs = true ∧ ';' ∉ "add B, 3 ".toList ∧
      parseLine .reject "add B, 3 ".toList = .ok (some ⟨.add, .b, some (.imm 3)⟩) :=
  ⟨by decide, by decide, ok_of_toOption _ _ (by decide)⟩

/-- The greatest magnitude that is an immediate, and the least that is not. -/
theorem witness_LiteralValues : (255 : Nat) ≤ 255 ∧ (255 : Nat) < 256 ∧
    literalMagnitude "0ffh".toList = some 255 ∧ literalMagnitude "256".toList = some 256 := by decide

theorem witness_ListingRoundTrip :
    '\n' ∉ "v2.0 raw".toList ∧ ∀ w ∈ [(0x0105 : Word), 0xFFFF], wordFits .truncate5 w = true := by
  have h : [(0x0105 : Word), 0xFFFF].all (wordFits .truncate5) = true := by decide
  exact ⟨by decide, fun w hw => List.all_eq_true.mp h w hw⟩

theorem witness_AssembledProgramCompletes :
    Params.default.enc = .mode .truncate5 ∧ codesDistinct .truncate5 Params.default.map = true ∧
      ∃ ws, assemble .reject .truncate5 Params.default.map "mov A, 5h\nadd A, 3\nout A".toList = .ok ws :=
  ⟨rfl, by decide, [0x0105, 0x0903, 0x5000], ok_of_toOption _ _ (by decide)⟩

end Sys2Proof.Tests
end

section
/-! SUPPORT. Proofs of the statements about the state (spec/10_state.md), after the facts about `exec` and `step` that they
need: one equation per action of R30, the inversion of an answered step, and what every step does to the index, the counter
and the surroundings. -/

namespace Sys2Proof.Proofs

open Sys2Proof.Machine Sys2Proof.Safety

/-! ### Executing an instruction -/

/-- Every instruction answers a next state. -/
theorem exec_completes (i : Instr) (s : State) : ∃ t, exec i s = .next t := by
  rcases exec_cases i s with ⟨_, _, h⟩ | ⟨_, _, h⟩ <;> exact ⟨_, h⟩

/-- What every instruction does outside the registers and the latch (R86 to R88, R97). -/
theorem exec_next_frame {i : Instr} {s t : State} (h : exec i s = .next t) :
    t.cycles = s.cycles + 1 ∧ t.pc = s.pc + 1 ∧ t.fault = s.fault ∧ SameSurroundings s t := by
  rcases exec_cases i s with ⟨rd, _, hx⟩ | ⟨_, v, hx⟩ <;> cases hx.symm.trans h <;> simp [SameSurroundings]

/-- The unary template's result depends on the working value alone. -/
theorem unaryOp_result_congr {f : Byte → Byte} {rd : Reg} {s s' t t' : State} (hwv : s.reg rd = s'.reg rd)
    (h : unaryOp f rd s = .next t) (h' : unaryOp f rd s' = .next t') : t.reg rd = t'.reg rd := by
  cases h
  cases h'
  simp [hwv]

/-- The binary template's result depends on the function, the working value and the operand value alone. -/
theorem binaryOp_result_congr {f f' : Byte → Byte → Byte} {rd : Reg} {src : Operand} {s s' t t' : State}
    (hf : f = f') (hwv : s.reg rd = s'.reg rd) (hopv : s.operandValue src = s'.operandValue src)
    (h : binaryOp f rd src s = .next t) (h' : binaryOp f' rd src s' = .next t') : t.reg rd = t'.reg rd := by
  cases h
  cases h'
  simp [hf, hwv, hopv]

/-! ### The five actions of R30, one equation each -/

theorem step_reset {s : State} (hr : s.sample.rst = true) : step s = .next s.beginStep.resetBlock := by
  simp [step, blockStep, hr]

/-- While a fault is held, a step without a reset does nothing. -/
theorem step_held {s : State} (hr : s.sample.rst = false) (hf : s.fault = true) : step s = .next s.beginStep := by
  simp [step, blockStep, hr, hf]

/-- Without a word a step does nothing, whether a fault is held or not. -/
theorem step_idle {s : State} (hr : s.sample.rst = false) (hv : s.sample.instrValid = false) :
    step s = .next s.beginStep := by
  simp [step, blockStep, hr, hv]

theorem step_word {s : State} (hr : s.sample.rst = false) (hf : s.fault = false) (hv : s.sample.instrValid = true) :
    step s = runWord exec s.sample.instr s.beginStep := by
  simp [step, blockStep, hr, hf, hv]

theorem step_illegal {s : State} (hr : s.sample.rst = false) (hf : s.fault = false) (hv : s.sample.instrValid = true)
    (hd : decode s.params s.sample.instr = .illegal) :
    step s = .next (s.beginStep.takeException (.illegalInstruction s.sample.instr s.pc)) := by
  simp [step_word hr hf hv, runWord, hd]

theorem step_instr {s : State} {i : Instr} (hr : s.sample.rst = false) (hf : s.fault = false)
    (hv : s.sample.instrValid = true) (hd : decode s.params s.sample.instr = .instr i) :
    ∃ t, exec i s.beginStep = .next t ∧ step s = .next (t.emitTrace i s.sample.instr) := by
  obtain ⟨t, ht⟩ := exec_completes i s.beginStep
  exact ⟨t, ht, by simp [step_word hr hf hv, runWord, hd, ht]⟩

/-! ### What an answered step did -/

/-- A step that answers a next state took one of the five actions of R30 (`step_cases` without the refusal). -/
theorem step_next_cases {s t : State} (h : step s = .next t) :
    (s.sample.rst = true ∧ t = s.beginStep.resetBlock) ∨
    (s.sample.rst = false ∧ s.fault = true ∧ t = s.beginStep) ∨
    (s.sample.rst = false ∧ s.fault = false ∧ s.sample.instrValid = false ∧ t = s.beginStep) ∨
    (s.sample.rst = false ∧ s.fault = false ∧ s.sample.instrValid = true ∧
      decode s.params s.sample.instr = .illegal ∧
      t = s.beginStep.takeException (.illegalInstruction s.sample.instr s.pc)) ∨
    (s.sample.rst = false ∧ s.fault = false ∧ s.sample.instrValid = true ∧
      ∃ i u, decode s.params s.sample.instr = .instr i ∧ exec i s.beginStep = .next u ∧
        t = u.emitTrace i s.sample.instr) := by
  rcases step_cases s with ⟨hr, hs⟩ | ⟨hr, hf, hs⟩ | ⟨hr, hf, hv, hs⟩ |
      ⟨hr, hf, hv, ⟨why, _, hs⟩ | ⟨hd, hs⟩ | ⟨i, u, hd, hu, hs⟩⟩ <;>
    cases hs.symm.trans h
  case inl => exact .inl ⟨hr, rfl⟩
  case inr.inl => exact .inr (.inl ⟨hr, hf, rfl⟩)
  case inr.inr.inl => exact .inr (.inr (.inl ⟨hr, hf, hv, rfl⟩))
  case inr.inr.inr.inr.inl => exact .inr (.inr (.inr (.inl ⟨hr, hf, hv, hd, rfl⟩)))
  case inr.inr.inr.inr.inr => exact .inr (.inr (.inr (.inr ⟨hr, hf, hv, i, u, hd, hu, rfl⟩)))

/-- Every step keeps what is no state of the block, but for the sample it uses up. -/
theorem step_next_surroundings {s t : State} (h : step s = .next t) :
    t.program = s.program ∧ t.inputs = s.inputs.tail ∧ t.tracing = s.tracing ∧ t.params = s.params := by
  rcases step_next_cases h with ⟨_, rfl⟩ | ⟨_, _, rfl⟩ | ⟨_, _, _, rfl⟩ | ⟨_, _, _, _, rfl⟩ |
    ⟨_, _, _, i, u, _, hu, rfl⟩
  case inr.inr.inr.inr =>
    obtain ⟨_, _, _, _, _, hprog, hin, htr, hpar⟩ := exec_next_frame hu
    simp [hprog, hin, htr, hpar]
  all_goals simp

/-- A step zeroes the index and the counter, keeps both, or adds 1 to both for a presented word. -/
theorem step_next_pc_cycles {s t : State} (h : step s = .next t) :
    (t.pc = 0 ∧ t.cycles = 0) ∨ (t.pc = s.pc ∧ t.cycles = s.cycles) ∨
      (s.sample.instrValid = true ∧ t.pc = s.pc + 1 ∧ t.cycles = s.cycles + 1) := by
  rcases step_next_cases h with ⟨_, rfl⟩ | ⟨_, _, rfl⟩ | ⟨_, _, _, rfl⟩ | ⟨_, _, _, _, rfl⟩ |
    ⟨_, _, hv, i, u, _, hu, rfl⟩
  · exact .inl ⟨rfl, rfl⟩
  · exact .inr (.inl ⟨rfl, rfl⟩)
  · exact .inr (.inl ⟨rfl, rfl⟩)
  · exact .inr (.inl ⟨rfl, rfl⟩)
  · obtain ⟨hcycles, hpc, _⟩ := exec_next_frame hu
    exact .inr (.inr ⟨hv, by simp [hpc], by simp [hcycles]⟩)

theorem step_keeps_pc_eq_cycles {s t : State} (hs : s.pc = s.cycles) (h : step s = .next t) : t.pc = t.cycles := by
  rcases step_next_pc_cycles h with ⟨hpc, hcy⟩ | ⟨hpc, hcy⟩ | ⟨_, hpc, hcy⟩ <;> simp [hpc, hcy, hs]

/-! ### Sequencing -/

/-- The sequencer presents a word only before the end of the program (R23). -/
theorem pc_lt_length_of_instrValid {s : State} (hi : s.inputs = []) (hv : s.sample.instrValid = true) :
    s.pc < s.program.length := by
  by_contra hend
  simp [State.sample_end s hi (Nat.le_of_not_lt hend)] at hv

theorem step_keeps_sequenced {s t : State} (hs : Sequenced s) (h : step s = .next t) : Sequenced t := by
  obtain ⟨hi, hle⟩ := hs
  obtain ⟨hprog, hin, _⟩ := step_next_surroundings h
  refine ⟨by simp [hin, hi], ?_⟩
  rw [hprog]
  rcases step_next_pc_cycles h with ⟨hpc, _⟩ | ⟨hpc, _⟩ | ⟨hv, hpc, _⟩
  · omega
  · omega
  · have := pc_lt_length_of_instrValid hi hv
    omega

/-- A state that shows no exception and no trace record is consistent once its index and counter agree. -/
theorem consistent_of_no_outputs {s : State} (hpc : s.pc = s.cycles) (hr : s.raised = none) (ht : s.traceOut = none) :
    Consistent s where
  pc_cycles := hpc
  raised_fault h := absurd hr h
  trace_current r h := by simp [ht] at h

/-! ### The statements -/

/-- Settles O5, by the action the step took. -/
theorem faultBitRule : Obligations.FaultBitRule := by
  intro s t h
  rcases step_next_cases h with ⟨hr, rfl⟩ | ⟨hr, hf, rfl⟩ | ⟨hr, hf, hv, rfl⟩ | ⟨hr, hf, hv, hd, rfl⟩ |
    ⟨hr, hf, hv, i, u, hd, hu, rfl⟩
  · simp [hr]
  · simp [hr, hf, SameBlock]
  · simp [hr, hf, hv]
  · simp [hr, hf, hv, hd]
  · obtain ⟨_, _, hfault, _⟩ := exec_next_frame hu
    simp [hr, hf, hd, hfault]

/-- Settles O11: a word is presented only at `pc < N`, so the advance stays in 0..N, and at `pc = N` the step is idle. -/
theorem sequencedStepStaysInProgram : Obligations.SequencedStepStaysInProgram := by
  refine ⟨fun s t hs h => step_keeps_sequenced hs h, fun s hi hpc => ?_⟩
  have hsample := State.sample_end s hi hpc.ge
  exact ⟨_, step_idle (by rw [hsample]) (by rw [hsample]), rfl, rfl, rfl, rfl, rfl⟩

/-- Settles O12: over the run the state stays sequenced in the same program and the counter equals the index, so both are
at most N. -/
theorem cycleCounterNeverWrapsInARun : Obligations.CycleCounterNeverWrapsInARun := by
  intro k s t hs hc hrun
  have hseq : Sequenced t := run_keeps Sequenced (fun _ _ => step_keeps_sequenced) k s t hs hrun
  have heq : t.pc = t.cycles :=
    run_keeps (fun u => u.pc = u.cycles) (fun _ _ => step_keeps_pc_eq_cycles) k s t hc.pc_cycles hrun
  have hprog : t.program = s.program :=
    run_keeps (fun u => u.program = s.program) (fun _ _ hu h => (step_next_surroundings h).1.trans hu) k s t rfl hrun
  have hpc : t.pc < 2 ^ Nat.clog 2 (s.program.length + 1) :=
    calc t.pc ≤ t.program.length := hseq.2
      _ < s.program.length + 1 := by rw [hprog]; exact Nat.lt_succ_self _
      _ ≤ 2 ^ Nat.clog 2 (s.program.length + 1) := Nat.le_pow_clog Nat.one_lt_two _
  exact ⟨heq ▸ hpc, hpc⟩

/-- Settles O19: each instruction is OUT or one of the two templates, whose function the parameters fix. -/
theorem resultDependsOnlyOnOperands : Obligations.ResultDependsOnlyOnOperands := by
  intro i s s' t t' hp hwv hopv h h'
  cases i with
  | out rd =>
    cases h
    cases h'
    exact ⟨hwv, fun _ => hwv⟩
  | neg rd | not rd => exact ⟨unaryOp_result_congr hwv h h', nofun⟩
  | mov rd src => exact ⟨binaryOp_result_congr (f := fun _ opv => opv) rfl hwv (hopv src rfl) h h', nofun⟩
  | add rd src | sub rd src | xor rd src | mul rd src | and rd src | or rd src =>
    exact ⟨binaryOp_result_congr rfl hwv (hopv src rfl) h h', nofun⟩
  | shl rd src | shr rd src | imul rd src =>
    exact ⟨binaryOp_result_congr (by rw [hp]) hwv (hopv src rfl) h h', nofun⟩

/-- Settles O1: the registers read from `RegFile.zero`, the rest is what `State.reset` writes. -/
theorem resetStateValues : Obligations.ResetStateValues :=
  ⟨RegFile.get_zero, rfl, rfl, rfl, rfl⟩

/-- Settles O3, one equation for each action. -/
theorem blockStepPrecedence : Obligations.BlockStepPrecedence :=
  fun _ => ⟨step_reset, step_held, fun hr _ hv => step_idle hr hv, step_illegal, fun _ => step_instr⟩

/-- Settles O10: no output shows in the reset state or at a run's start, and both count from 0. -/
theorem resetAndRunStartsAreConsistent : Obligations.ResetAndRunStartsAreConsistent :=
  ⟨consistent_of_no_outputs rfl rfl rfl, fun _ _ => consistent_of_no_outputs rfl rfl rfl⟩

end Sys2Proof.Proofs
end

section
/-! SUPPORT. Proof of the statement about the memory (spec/20_memory.md): what no step writes. -/

namespace Sys2Proof.Proofs

/-- Settles O13: program, parameters and tracing switch are among the surroundings that every action of R30 keeps. -/
theorem stepKeepsProgramAndParameters : Obligations.StepKeepsProgramAndParameters := by
  intro s t h
  obtain ⟨hprog, _, htracing, hparams⟩ := step_next_surroundings h
  exact ⟨hprog, hparams, htracing⟩

end Sys2Proof.Proofs
end

section
/-! SUPPORT. Proofs of the statements about words (spec/30_encoding.md R47 to R62): the fields of an encoded word, the
decoder case by case, and which words it reads alike. -/

namespace Sys2Proof.Proofs

open Sys2Proof.Machine Sys2Proof.Safety

/-! ### The fields of an encoded word -/

/-- The fields of R50 do not overlap and fill no more than 17 bits, so the encoder's sum is not truncated. -/
theorem encode_toNat (m : EncMode) (map : OpcodeMap) (i : Instr) :
    (encode m map i).toNat = fieldCode m map i.op * 2048 + i.rd.code * 512 + operandBits i.operand := by
  have hF := fieldCode_lt m map i.op
  have hrd := i.rd.code_lt
  have ho := operandBits_lt i.operand
  rw [encode, BitVec.toNat_ofNat]
  exact Nat.mod_eq_of_lt (by omega)

theorem wordFits_truncate5 (w : Word) : wordFits .truncate5 w = true ↔ w.toNat < 65536 :=
  decide_eq_true_iff

theorem wordFits_widen6 (w : Word) : wordFits .widen6 w = true :=
  decide_eq_true w.isLt

theorem wordFits_encode (m : EncMode) (map : OpcodeMap) (i : Instr) : wordFits m (encode m map i) = true := by
  cases m with
  | truncate5 =>
    have hF := fieldCode_truncate5_lt map i.op
    have hrd := i.rd.code_lt
    have ho := operandBits_lt i.operand
    rw [wordFits_truncate5, encode_toNat]
    omega
  | widen6 => exact wordFits_widen6 _

theorem encode_div_2048 (m : EncMode) (map : OpcodeMap) (i : Instr) :
    (encode m map i).toNat / 2048 = fieldCode m map i.op := by
  have hrd := i.rd.code_lt
  have ho := operandBits_lt i.operand
  rw [encode_toNat]
  omega

theorem opField_encode (m : EncMode) (map : OpcodeMap) (i : Instr) :
    opField m (encode m map i) = fieldCode m map i.op := by
  cases m with
  | truncate5 => rw [opField_truncate5, encode_div_2048, Nat.mod_eq_of_lt (fieldCode_truncate5_lt map i.op)]
  | widen6 => rw [opField_widen6, encode_div_2048]

theorem rdField_encode (m : EncMode) (map : OpcodeMap) (i : Instr) : rdField (encode m map i) = i.rd := by
  have hrd := i.rd.code_lt
  have ho := operandBits_lt i.operand
  have hcode : (encode m map i).toNat / 512 % 4 = i.rd.code := by
    rw [encode_toNat]
    omega
  rw [rdField_eq, ← Reg.ofCode_mod, hcode, Reg.ofCode_code]

/-- The low nine bits of an encoded word are the operand's (R50). -/
theorem encode_mod_512 (m : EncMode) (map : OpcodeMap) (i : Instr) :
    (encode m map i).toNat % 512 = operandBits i.operand := by
  have ho := operandBits_lt i.operand
  rw [encode_toNat]
  omega

theorem operandField_of_operandBits {w : Word} {o : Operand} (h : w.toNat % 512 = operandBits (some o)) :
    operandField w = o := by
  rw [operandField_eq]
  cases o with
  | imm n =>
    have hn := n.isLt
    simp only [operandBits] at h
    rw [if_pos (by omega)]
    congr 1
    apply BitVec.eq_of_toNat_eq
    rw [BitVec.toNat_ofNat]
    omega
  | reg rs =>
    have hr := rs.code_lt
    simp only [operandBits] at h
    rw [if_neg (by omega), ← Reg.ofCode_mod, show w.toNat % 4 = rs.code by omega, Reg.ofCode_code]

/-! ### Instructions and their fields -/

/-- `RecordRoundTrip` over all instructions. -/
theorem recordRoundTrip (i : Instr) : Laws.RecordRoundTrip.Statement i := by
  cases i with
  | mov rd src => exact Laws.RecordRoundTrip.mov rd src
  | add rd src => exact Laws.RecordRoundTrip.add rd src
  | sub rd src => exact Laws.RecordRoundTrip.sub rd src
  | xor rd src => exact Laws.RecordRoundTrip.xor rd src
  | shl rd src => exact Laws.RecordRoundTrip.shl rd src
  | shr rd src => exact Laws.RecordRoundTrip.shr rd src
  | mul rd src => exact Laws.RecordRoundTrip.mul rd src
  | imul rd src => exact Laws.RecordRoundTrip.imul rd src
  | and rd src => exact Laws.RecordRoundTrip.and rd src
  | or rd src => exact Laws.RecordRoundTrip.or rd src
  | out rd => exact Laws.RecordRoundTrip.out rd
  | neg rd => exact Laws.RecordRoundTrip.neg rd
  | not rd => exact Laws.RecordRoundTrip.not rd

/-- The decoder's `instrOf` does not look at the operand field of a unary word. -/
theorem instrOf_fields (i : Instr) (o : Operand) (ho : i.operand = none ∨ i.operand = some o) :
    instrOf i.op i.rd o = i := by
  obtain ⟨_, _, h⟩ := recordRoundTrip i
  exact h o ho

/-- What `instrOf` builds has the operand field as its operand, or has none and is built from any operand field. -/
theorem instrOf_operand (op : Operation) (rd : Reg) (src : Operand) :
    (instrOf op rd src).operand = some src ∨
      ((instrOf op rd src).operand = none ∧ ∀ src', instrOf op rd src' = instrOf op rd src) := by
  cases op with
  | out | neg | not => exact .inr ⟨rfl, fun _ => rfl⟩
  | _ => exact .inl rfl

/-! ### The decoder, case by case -/

/-- A field that one operation alone has decodes to that operation with the word's other fields. -/
theorem decodeMode_of_field {m : EncMode} {map : OpcodeMap} {w : Word} {op : Operation} (hfit : wordFits m w = true)
    (hop : operationsAt m map (opField m w) = [op]) :
    decodeMode m map w = .instr (instrOf op (rdField w) (operandField w)) := by
  simp [decodeMode, hfit, hop]

/-- Where field codes are distinct, a word whose field is an operation's code decodes to that operation. -/
theorem decodeMode_of_fieldCode {m : EncMode} {map : OpcodeMap} {w : Word} {op : Operation}
    (hd : codesDistinct m map = true) (hfit : wordFits m w = true) (hF : opField m w = fieldCode m map op) :
    decodeMode m map w = .instr (instrOf op (rdField w) (operandField w)) :=
  decodeMode_of_field hfit (hF ▸ operationsAt_fieldCode m map hd op)

/-- A field that no operation has is illegal. -/
theorem decodeMode_illegal {m : EncMode} {map : OpcodeMap} {w : Word} (hfit : wordFits m w = true)
    (hF : opField m w ∉ Operation.all.map (fieldCode m map)) : decodeMode m map w = .illegal := by
  have hnil : operationsAt m map (opField m w) = [] := by
    refine List.filter_eq_nil_iff.mpr fun op hop hcode => hF ?_
    exact List.mem_map.mpr ⟨op, hop, beq_iff_eq.mp hcode⟩
  simp [decodeMode, hfit, hnil]

theorem decodeMode_legal {m : EncMode} {map : OpcodeMap} {w : Word} (hd : codesDistinct m map = true)
    (hfit : wordFits m w = true) (hF : opField m w ∈ Operation.all.map (fieldCode m map)) :
    ∃ i, decodeMode m map w = .instr i := by
  obtain ⟨op, _, hop⟩ := List.mem_map.mp hF
  exact ⟨_, decodeMode_of_fieldCode hd hfit hop.symm⟩

/-- Where field codes are distinct, the decoder refuses no word that fits. -/
theorem decode_not_refused {p : Params} {w : Word} (hp : Decodable p) (hw : Fits p w) (why : DecodeReject) :
    decode p w ≠ .refused why := by
  obtain ⟨m, hm, hd⟩ := hp
  obtain ⟨m', hm', hfit⟩ := hw
  cases hm.symm.trans hm'
  rw [decode_mode p m w hm]
  by_cases hF : opField m w ∈ Operation.all.map (fieldCode m p.map)
  · obtain ⟨i, hi⟩ := decodeMode_legal hd hfit hF
    simp [hi]
  · simp [decodeMode_illegal hfit hF]

theorem decode_legacyBleed {p : Params} (h : p.enc = .legacyBleed) (w : Word) : decode p w = .refused .legacyBleed := by
  simp [decode, h]

/-- Everything a decoded instruction says of the parameters and of the word. -/
theorem decode_eq_instr {p : Params} {w : Word} {i : Instr} (h : decode p w = .instr i) :
    ∃ m op, p.enc = .mode m ∧ wordFits m w = true ∧ operationsAt m p.map (opField m w) = [op] ∧
      i = instrOf op (rdField w) (operandField w) := by
  cases he : p.enc with
  | legacyBleed => cases (decode_legacyBleed he w).symm.trans h
  | mode m =>
    obtain ⟨hfit, op, hop, hi⟩ := decodeMode_instr m p.map w i ((decode_mode p m w he).symm.trans h)
    exact ⟨m, op, rfl, hfit, hop, hi⟩

/-- A register operand comes from a word with bit 8 clear, and its code stands in `w[1:0]` (R55). -/
theorem operandField_eq_reg {w : Word} {rs : Reg} (h : operandField w = .reg rs) :
    w.toNat / 256 % 2 = 0 ∧ rs.code = w.toNat % 4 := by
  rw [operandField_eq] at h
  split at h
  · cases h
  · cases h
    exact ⟨by omega, Reg.code_ofCode _⟩

theorem operandField_of_bit8_clear {w : Word} (h : w.toNat / 256 % 2 = 0) :
    operandField w = .reg (Reg.ofCode (w.toNat % 4)) := by
  rw [operandField_eq, if_neg (by omega), Reg.ofCode_mod]

/-! ### Words that agree above bit 8 -/

section AgreeAboveBit8

variable {w w' : Word} (h : w'.toNat / 512 = w.toNat / 512)
include h

theorem wordFits_congr (m : EncMode) : wordFits m w' = wordFits m w := by
  cases m with
  | truncate5 =>
    rw [Bool.eq_iff_iff, wordFits_truncate5, wordFits_truncate5]
    omega
  | widen6 => rw [wordFits_widen6, wordFits_widen6]

theorem opField_congr (m : EncMode) : opField m w' = opField m w := by
  cases m with
  | truncate5 =>
    rw [opField_truncate5, opField_truncate5]
    omega
  | widen6 =>
    rw [opField_widen6, opField_widen6]
    omega

theorem rdField_congr : rdField w' = rdField w := by
  rw [rdField_eq, rdField_eq, h]

/-- Only the operand field of the decoded instruction can differ. -/
theorem decode_congr {p : Params} {m : EncMode} {op : Operation} (hm : p.enc = .mode m) (hfit : wordFits m w = true)
    (hop : operationsAt m p.map (opField m w) = [op]) :
    decode p w' = .instr (instrOf op (rdField w) (operandField w')) := by
  rw [decode_mode p m w' hm, ← rdField_congr h]
  exact decodeMode_of_field (wordFits_congr h m ▸ hfit) (opField_congr h m ▸ hop)

end AgreeAboveBit8

/-! ### The field codes of the spec's map -/

theorem mem_fieldCodes_truncate5 (F : Nat) : F ∈ Operation.all.map (fieldCode .truncate5 .default) ↔ F < 13 := by
  have hcodes : Operation.all.map (fieldCode .truncate5 .default) = List.range 13 := by decide
  rw [hcodes, List.mem_range]

theorem mem_fieldCodes_widen6 (F : Nat) :
    F ∈ Operation.all.map (fieldCode .widen6 .default) ↔ F ∈ [0, 1, 2, 6, 7, 8, 9, 10, 11, 12, 35, 36, 37] := by
  have hperm : (Operation.all.map (fieldCode .widen6 .default)).Perm [0, 1, 2, 6, 7, 8, 9, 10, 11, 12, 35, 36, 37] := by
    decide
  exact hperm.mem_iff

/-! ### What a step cannot answer -/

/-- No step answers a fault: the exception of R118 is a next state (log 9). -/
theorem step_ne_fault (s : State) (e : Fault) : step s ≠ .fault e := by
  rcases step_cases s with ⟨_, hs⟩ | ⟨_, _, hs⟩ | ⟨_, _, _, hs⟩ | ⟨_, _, _, ⟨_, _, hs⟩ | ⟨_, hs⟩ | ⟨_, _, _, _, hs⟩⟩ <;>
    simp [hs]

/-- A step refuses only a presented word that the decoder refuses. -/
theorem step_eq_refused {s : State} {e : Refusal} (h : step s = .refused e) :
    ∃ why, e = .undecodable why ∧ decode s.params s.sample.instr = .refused why ∧
      s.sample.rst = false ∧ s.fault = false ∧ s.sample.instrValid = true := by
  rcases step_cases s with ⟨_, hs⟩ | ⟨_, _, hs⟩ | ⟨_, _, _, hs⟩ |
      ⟨hr, hf, hv, ⟨why, hd, hs⟩ | ⟨_, hs⟩ | ⟨_, _, _, _, hs⟩⟩ <;>
    cases hs.symm.trans h
  exact ⟨why, rfl, hd, hr, hf, hv⟩

/-! ### The statements about words -/

/-- Settles O41: the encoder writes each field where the decoder reads it. -/
theorem decodeEncodeRoundTrip : Obligations.DecodeEncodeRoundTrip := by
  intro p m hm hd i
  have hop : i.operand = none ∨ i.operand = some (operandField (encode m p.map i)) := by
    have hbits := encode_mod_512 m p.map i
    cases ho : i.operand with
    | none => exact .inl rfl
    | some o =>
      rw [ho] at hbits
      rw [operandField_of_operandBits hbits]
      exact .inr rfl
  calc decode p (encode m p.map i)
      = decodeMode m p.map (encode m p.map i) := decode_mode p m _ hm
    _ = .instr (instrOf i.op (rdField (encode m p.map i)) (operandField (encode m p.map i))) :=
        decodeMode_of_fieldCode hd (wordFits_encode m p.map i) (opField_encode m p.map i)
    _ = .instr i := by rw [rdField_encode, instrOf_fields i _ hop]

/-- Settles O14: what a step refuses is a word that the decoder refuses, and the decoder refuses none that fits. -/
theorem decodableStepAlwaysAnswers : Obligations.DecodableStepAlwaysAnswers := by
  refine ⟨fun s hp hw => ?_, step_ne_fault, fun _ _ => step_eq_refused⟩
  cases hs : step s with
  | next t => exact ⟨t, rfl⟩
  | fault e => exact absurd hs (step_ne_fault s e)
  | refused e =>
    obtain ⟨why, _, hd, _⟩ := step_eq_refused hs
    exact absurd hd (decode_not_refused hp hw why)

/-- Settles O42, with the operation's field code as `F`. -/
theorem encodeIsFieldSum : Obligations.EncodeIsFieldSum := by
  intro m map i
  have hsum := encode_toNat m map i
  refine ⟨fieldCode m map i.op, ?_, ?_, fun ho => ?_, fun n ho => ?_, fun rs ho => ?_, wordFits_encode m map i⟩
  · rintro rfl
    rfl
  · rintro rfl
    rfl
  · rw [hsum, ho, operandBits, Nat.add_zero]
  · rw [hsum, ho, operandBits, ← Nat.add_assoc]
  · rw [hsum, ho, operandBits]

/-- Settles O44: the legal fields are the codes of the spec's map. -/
theorem illegalWordsAreExactlyTheOtherFields : Obligations.IllegalWordsAreExactlyTheOtherFields := by
  refine ⟨fun w hfit => ?_, fun w => ?_⟩
  · have hlt := (wordFits_truncate5 w).mp hfit
    have hF : opField .truncate5 w ∈ Operation.all.map (fieldCode .truncate5 .default) ↔ w.toNat < 0x6800 := by
      rw [mem_fieldCodes_truncate5, opField_truncate5]
      omega
    exact ⟨fun h => decodeMode_illegal hfit (hF.not.mpr (by omega)),
      fun h => decodeMode_legal (by decide) hfit (hF.mpr h)⟩
  · rw [← mem_fieldCodes_widen6, ← opField_widen6]
    exact ⟨decodeMode_illegal (wordFits_widen6 w), decodeMode_legal (by decide) (wordFits_widen6 w)⟩

/-- Settles O45: the fields above bit 8 are read from those bits alone, a unary word's operand field is not looked at, and
a register operand's is `w[8]` and `w[1:0]`. -/
theorem dontCareBitsAreIgnored : Obligations.DontCareBitsAreIgnored := by
  refine ⟨fun p w w' i h => ?_, fun m map i => ?_⟩
  · obtain ⟨m, op, hm, hfit, hop, rfl⟩ := decode_eq_instr h
    rcases instrOf_operand op (rdField w) (operandField w) with hsome | ⟨hnone, hany⟩
    · rw [hsome]
      refine ⟨nofun, fun rs hrs => ?_⟩
      obtain ⟨h8, hcode⟩ := operandField_eq_reg (Option.some.inj hrs)
      refine ⟨hcode, fun hw hv => ?_⟩
      have hsame : operandField w' = operandField w := by
        rw [operandField_of_bit8_clear h8, operandField_of_bit8_clear (hw ▸ h8), hv]
      exact (decode_congr (by omega) hm hfit hop).trans (by rw [hsame])
    · rw [hnone]
      exact ⟨fun _ hw => (decode_congr hw hm hfit hop).trans (by rw [hany]), nofun⟩
  · have hlow := encode_mod_512 m map i
    refine ⟨fun ho => by rw [hlow, ho, operandBits], fun rs ho => ?_⟩
    have hrs := rs.code_lt
    rw [ho, operandBits] at hlow
    omega

/-- Settles O48: the two sums differ by a multiple of 32 * 2048. -/
theorem widen6KeepsTheLowBits : Obligations.Widen6KeepsTheLowBits := by
  intro map i
  have hrd := i.rd.code_lt
  have ho := operandBits_lt i.operand
  rw [encode_toNat, encode_toNat, fieldCode, fieldCode]
  omega

/-- Settles O15, by the decoder's refusal and the step's. -/
theorem legacyBleedIsRefused : Obligations.LegacyBleedIsRefused := by
  refine ⟨fun p w h => decode_legacyBleed h w, fun s h hr hf hv => ?_⟩
  have hd := decode_legacyBleed (p := s.beginStep.params) h s.sample.instr
  simp only [step_word hr hf hv, runWord, hd]

/-- Settles O43, by evaluation of the table. -/
theorem fieldCodeTable : Obligations.FieldCodeTable := by
  unfold Obligations.FieldCodeTable
  decide

/-- Settles O47, by evaluation of the decoder on each word. -/
theorem specWordsDecode : Obligations.SpecWordsDecode := by
  unfold Obligations.SpecWordsDecode
  decide

end Sys2Proof.Proofs
end

section
/-! SUPPORT. Proofs of the statements about texts (spec/30_encoding.md R63 to R77): the lookups, digits and literals,
listings, and the parser, whose functions are inverted once each (`parseOperand_eq_ok`, `parseRegister_eq_ok`,
`parseLine_eq_ok`). -/

namespace Sys2Proof.Proofs

open Sys2Proof.Machine

/-! ### The lookups -/

/-- Looking up a key that names each entry of a list once. -/
theorem find?_key_eq_some {α β : Type} [BEq β] [LawfulBEq β] {l : List α} {key : α → β} (hl : ∀ a, a ∈ l)
    (hinj : ∀ a b, key a = key b → a = b) (k : β) (a : α) :
    l.find? (fun x => key x == k) = some a ↔ key a = k := by
  refine ⟨fun h => by simpa using List.find?_some h, fun h => ?_⟩
  cases hfind : l.find? (fun x => key x == k) with
  | none => exact absurd (beq_iff_eq.mpr h) (List.find?_eq_none.mp hfind a (hl a))
  | some b =>
    have hb : key b = k := by simpa using List.find?_some hfind
    rw [hinj b a (hb.trans h.symm)]

theorem mnemonicText_injective (op op' : Operation) (h : mnemonicText op = mnemonicText op') : op = op' := by
  have hall : ∀ q ∈ Operation.all, ∀ q' ∈ Operation.all, mnemonicText q = mnemonicText q' → q = q' := by decide
  exact hall op op.mem_all op' op'.mem_all h

/-- The list that `registerFromText` searches holds every register. -/
theorem mem_registers (r : Reg) : r ∈ [Reg.a, .b, .c, .d] := by cases r <;> decide

theorem registerToText_injective (r r' : Reg) (h : registerToText r = registerToText r') : r = r' := by
  have hall : ∀ q ∈ [Reg.a, .b, .c, .d], ∀ q' ∈ [Reg.a, .b, .c, .d],
      registerToText q = registerToText q' → q = q' := by decide
  exact hall r (mem_registers r) r' (mem_registers r') h

theorem operationFromText_eq_ok (name : List Char) (op : Operation) :
    operationFromText name = .ok op ↔ mnemonicText op = name.map Char.toLower := by
  rw [← find?_key_eq_some Operation.mem_all mnemonicText_injective, operationFromText]
  split <;> simp [*]

theorem registerFromText_eq_ok (name : List Char) (r : Reg) :
    registerFromText name = .ok r ↔ registerToText r = name.map Char.toUpper := by
  rw [← find?_key_eq_some mem_registers registerToText_injective, registerFromText]
  split <;> simp [*]

/-- A failing lookup reports the name it was given. -/
theorem operationFromText_eq_error {name : List Char} (h : ∀ op, operationFromText name ≠ .ok op) :
    operationFromText name = .error (.unknownOperation name) := by
  unfold operationFromText at h ⊢
  split
  · next op hop => exact absurd (by rw [hop]) (h op)
  · rfl

theorem registerFromText_eq_error {name : List Char} (h : ∀ r, registerFromText name ≠ .ok r) :
    registerFromText name = .error (.unknownRegister name) := by
  unfold registerFromText at h ⊢
  split
  · next r hr => exact absurd (by rw [hr]) (h r)
  · rfl

theorem toLower_operationToText (c : LetterCase) (op : Operation) :
    (operationToText c op).map Char.toLower = mnemonicText op := by
  have hall : ∀ q ∈ Operation.all, (operationToText .lower q).map Char.toLower = mnemonicText q ∧
      (operationToText .upper q).map Char.toLower = mnemonicText q := by decide
  obtain ⟨hlower, hupper⟩ := hall op op.mem_all
  cases c with
  | lower => exact hlower
  | upper => exact hupper

/-- Settles O53: the lookups are searches for a key, and the inverses spell that key in some letter case. -/
theorem textFunctionsRoundTrip : Obligations.TextFunctionsRoundTrip := by
  refine ⟨operationFromText_eq_ok, fun name h => ?_, registerFromText_eq_ok, fun name h => ?_, fun r => ?_,
    fun c op => ?_⟩
  · exact operationFromText_eq_error fun op hop => h op ((operationFromText_eq_ok name op).mp hop)
  · exact registerFromText_eq_error fun r hr => h r ((registerFromText_eq_ok name r).mp hr)
  · rw [registerFromText_eq_ok]
    cases r <;> rfl
  · rw [operationFromText_eq_ok, toLower_operationToText]

/-! ### Hexadecimal digits -/

theorem digitValue_hexDigit {d : Nat} (h : d < 16) : digitValue 16 (hexDigit d) = some d := by
  have hall : ∀ d < 16, digitValue 16 (hexDigit d) = some d := by decide
  exact hall d h

@[simp] theorem length_hexDigits (k v : Nat) : (hexDigits k v).length = k := by
  induction k generalizing v with
  | zero => rfl
  | succ k ih => simp [hexDigits, ih]

/-- The digits are those of numbers below 16. -/
theorem exists_hexDigit_of_mem {k v : Nat} {c : Char} (h : c ∈ hexDigits k v) : ∃ d < 16, c = hexDigit d := by
  induction k generalizing v with
  | zero => cases h
  | succ k ih =>
    rcases List.mem_append.mp h with h | h
    · exact ih h
    · exact ⟨v % 16, Nat.mod_lt _ (by decide), List.mem_singleton.mp h⟩

/-- A character that is no digit stands in no number. -/
theorem notMem_hexDigits {c : Char} (hc : ∀ d < 16, hexDigit d ≠ c) (k v : Nat) : c ∉ hexDigits k v := by
  intro h
  obtain ⟨d, hd, rfl⟩ := exists_hexDigit_of_mem h
  exact hc d hd rfl

theorem digitsValue_append_digit {base d : Nat} {c : Char} (hc : digitValue base c = some d) (l : List Char) (acc : Nat) :
    digitsValue base (l ++ [c]) acc = (digitsValue base l acc).map (· * base + d) := by
  induction l generalizing acc with
  | nil => simp [digitsValue, hc]
  | cons a l ih =>
    cases ha : digitValue base a with
    | none => simp [digitsValue, ha]
    | some n => simp [digitsValue, ha, ih]

/-- Reading back `k` digits gives the number they were written from, mod `16^k`. -/
theorem digitsValue_hexDigits (k v : Nat) : digitsValue 16 (hexDigits k v) 0 = some (v % 16 ^ k) := by
  induction k generalizing v with
  | zero => simp [hexDigits, digitsValue, Nat.mod_one]
  | succ k ih =>
    have hd : v % 16 < 16 := Nat.mod_lt _ (by decide)
    rw [hexDigits, digitsValue_append_digit (digitValue_hexDigit hd), ih, Option.map_some, Nat.pow_succ', Nat.mod_mul]
    congr 1
    omega

/-! ### Literals -/

/-- The immediate of a magnitude that fits a byte (R72). -/
theorem literalImmediate_of_le (ov : LiteralOverflow) (minus : Bool) {m : Nat} (h : m ≤ 255) :
    literalImmediate ov minus m = some (BitVec.ofNat 8 (if minus then (256 - m) % 256 else m)) := by
  simp [literalImmediate, h]

theorem literalMagnitude_hex {digits : List Char} (h : digits ≠ []) :
    literalMagnitude (digits ++ ['h']) = digitsValue 16 digits 0 := by
  have hbase : literalBase (digits ++ ['h']) = (16, digits) := by
    simp [literalBase, show Char.toLower 'h' = 'h' by decide]
  unfold literalMagnitude
  rw [hbase]
  cases digits with
  | nil => exact absurd rfl h
  | cons => rfl

theorem literalOperand_hexDigits (ov : LiteralOverflow) (minus : Bool) (n : Byte) :
    literalOperand ov minus (hexDigits 2 n.toNat ++ ['h']) = some (.imm (if minus then -n else n)) := by
  have hne : hexDigits 2 n.toNat ≠ [] := by simp [← List.length_pos_iff]
  have hn : n.toNat < 16 ^ 2 := n.isLt
  have hval : BitVec.ofNat 8 (if minus then (256 - n.toNat) % 256 else n.toNat) = if minus then -n else n := by
    apply BitVec.eq_of_toNat_eq
    cases minus <;> simp
  rw [literalOperand, literalMagnitude_hex hne, digitsValue_hexDigits, Nat.mod_eq_of_lt hn]
  simp [literalImmediate_of_le ov minus (Nat.le_of_lt_succ hn), hval]

/-- A register's name has one letter. -/
theorem length_of_registerFromText {name : List Char} {r : Reg} (h : registerFromText name = .ok r) :
    name.length = 1 := by
  have hlen := congrArg List.length ((registerFromText_eq_ok name r).mp h)
  rw [List.length_map] at hlen
  rw [← hlen]
  cases r <;> rfl

/-- A token that is no single letter and has no minus sign is a literal. -/
theorem operandOfToken_literal (ov : LiteralOverflow) {t : List Char} (hminus : '-' ∉ t) (hlen : t.length ≠ 1) :
    operandOfToken ov t = literalOperand ov false t := by
  have herr := registerFromText_eq_error (name := t) fun r hr => hlen (length_of_registerFromText hr)
  unfold operandOfToken
  split
  · exact absurd List.mem_cons_self hminus
  · rw [herr]

/-- Settles O57: digits written in hexadecimal are read back, and the magnitude is the byte's value. -/
theorem literalValues : Obligations.LiteralValues := by
  refine ⟨fun ov m h => ?_, fun minus m h => ?_, fun ov n => ⟨?_, ?_⟩⟩
  · refine ⟨_, _, literalImmediate_of_le ov false h, ?_, literalImmediate_of_le ov true h, ?_⟩
    · rw [BitVec.toNat_ofNat, if_neg Bool.false_ne_true]
      omega
    · simp
  · simp [literalImmediate, Nat.not_le.mpr h]
  · have hminus : '-' ∉ hexDigits 2 n.toNat ++ ['h'] := by
      simp [notMem_hexDigits (c := '-') (by decide) 2 n.toNat]
    exact (operandOfToken_literal ov hminus (by simp)).trans (literalOperand_hexDigits ov false n)
  · exact literalOperand_hexDigits ov true n

/-! ### Listings -/

/-- A text with a line that ends at LF is cut there first. -/
theorem cutLines_line {l : List Char} (h : '\n' ∉ l) (rest : List Char) :
    cutLines (l ++ '\n' :: rest) = l :: cutLines rest := by
  induction l with
  | nil => rfl
  | cons c l ih =>
    rw [List.mem_cons, not_or] at h
    rw [List.cons_append, cutLines, ih h.2]
    intro hc
    exact h.1 hc.symm

theorem cutLines_lines {α : Type} (line : α → List Char) (h : ∀ a, '\n' ∉ line a) (as : List α) :
    cutLines (as.flatMap fun a => line a ++ ['\n']) = as.map line ++ [[]] := by
  induction as with
  | nil => rfl
  | cons a as ih =>
    rw [List.flatMap_cons, List.append_assoc, List.singleton_append, cutLines_line (h a), ih, List.map_cons,
      List.cons_append]

theorem wordWidth_le_hexWidth (m : EncMode) : 2 ^ m.wordWidth ≤ 16 ^ hexWidth m := by
  cases m <;> decide

/-- A word that fits is read back from its digits (R77). -/
theorem readWord_hexDigits {m : EncMode} {w : Word} (hw : wordFits m w = true) (n : Nat) :
    readWord m n (hexDigits (hexWidth m) w.toNat) = .ok w := by
  have hlt : w.toNat < 2 ^ m.wordWidth := of_decide_eq_true hw
  have hne : hexDigits (hexWidth m) w.toNat ≠ [] := by
    rw [← List.length_pos_iff, length_hexDigits]
    cases m <;> decide
  have hval : w.toNat % 16 ^ hexWidth m = w.toNat := Nat.mod_eq_of_lt (hlt.trans_le (wordWidth_le_hexWidth m))
  simp [readWord, hne, digitsValue_hexDigits, hval, hlt]

theorem readWords_hexDigits {m : EncMode} {ws : List Word} (h : ∀ w ∈ ws, wordFits m w = true) (n : Nat) :
    readWords m n (ws.map (fun w => hexDigits (hexWidth m) w.toNat) ++ [[]]) = .ok ws := by
  induction ws generalizing n with
  | nil => rfl
  | cons w ws ih =>
    rw [List.forall_mem_cons] at h
    simp [readWords, readWord_hexDigits h.1, ih h.2]

/-- Settles O58: the listing is cut where the writer ended its lines, and each line is read back. -/
theorem listingRoundTrip : Obligations.ListingRoundTrip := by
  intro m marker ws hmarker hws
  have hdigits : ∀ w : Word, '\n' ∉ hexDigits (hexWidth m) w.toNat := fun w =>
    notMem_hexDigits (by decide) _ _
  rw [readListing, writeListing, cutLines_line hmarker, cutLines_lines _ hdigits]
  simp [readWords_hexDigits hws]

/-! ### Parsing one line -/

/-- The name of an operation is not empty, so a line that begins with one has not ended. -/
theorem not_atLineEnd_of_operation {l : List Char} {op : Operation}
    (h : operationFromText (l.takeWhile Char.isAlpha) = .ok op) : atLineEnd l = false := by
  rw [operationFromText_eq_ok] at h
  have hne : l.takeWhile Char.isAlpha ≠ [] := by
    intro hnil
    rw [hnil] at h
    cases op <;> cases h
  cases l with
  | nil => exact absurd rfl hne
  | cons c l =>
    refine decide_eq_false fun hc => hne ?_
    rw [hc]
    rfl

/-- The binary line's rest, as the grammar writes it (R66). -/
theorem parseOperand_eq_ok {ov : LiteralOverflow} {line rest : List Char} {o : Operand} :
    parseOperand ov line rest = .ok o ↔
      ∃ afterComma, skipWs rest = ',' :: afterComma ∧
        operandOfToken ov ((skipWs afterComma).takeWhile isTokenChar) = some o ∧
        atLineEnd (skipWs ((skipWs afterComma).dropWhile isTokenChar)) = true := by
  unfold parseOperand
  split
  · next afterComma hcomma =>
    simp only [hcomma, List.cons.injEq, true_and, exists_eq_left']
    split
    · next o' ho =>
      simp only [ho, Option.some.injEq]
      split <;> simp [*]
    · next ho => simp [ho]
  · next hcomma =>
    simp only [reduceCtorEq, false_iff, not_exists, not_and]
    intro afterComma h
    exact absurd h (hcomma afterComma)

/-- A line after its mnemonic (R66, R67), by the arity of the operation (R68). -/
theorem parseRegister_eq_ok {ov : LiteralOverflow} {op : Operation} {line rest : List Char} {r : InstrRecord} :
    parseRegister ov op line rest = .ok r ↔
      ∃ c afterReg rd, rest = c :: afterReg ∧ registerFromText [c] = .ok rd ∧ registerEnds afterReg = true ∧
        ((op.arity = .unary ∧ atLineEnd (skipWs afterReg) = true ∧ r = ⟨op, rd, none⟩) ∨
          (op.arity = .binary ∧ ∃ o, parseOperand ov line afterReg = .ok o ∧ r = ⟨op, rd, some o⟩)) := by
  cases rest with
  | nil => simp [parseRegister]
  | cons c afterReg =>
    cases hreg : registerFromText [c] with
    | error e => simp [parseRegister, hreg]
    | ok rd =>
      cases hends : registerEnds afterReg with
      | false => simp [parseRegister, hreg, hends]
      | true =>
        cases harity : op.arity with
        | unary =>
          cases hend : atLineEnd (skipWs afterReg) <;> simp [parseRegister, hreg, hends, harity, hend, eq_comm (a := r)]
        | binary =>
          cases hoperand : parseOperand ov line afterReg <;>
            simp [parseRegister, hreg, hends, harity, hoperand, eq_comm (a := r)]

/-- A line that parses has ended, or it is an operation's name, whitespace, and what `parseRegister` accepts. -/
theorem parseLine_eq_ok {ov : LiteralOverflow} {line : List Char} {x : Option InstrRecord} :
    parseLine ov line = .ok x ↔
      (atLineEnd (skipWs line) = true ∧ x = none) ∨
      ∃ op r, operationFromText ((skipWs line).takeWhile Char.isAlpha) = .ok op ∧
        (((skipWs line).dropWhile Char.isAlpha).head?.map isWs).getD false = true ∧
        parseRegister ov op line (skipWs ((skipWs line).dropWhile Char.isAlpha)) = .ok r ∧ x = some r := by
  cases hop : operationFromText ((skipWs line).takeWhile Char.isAlpha) with
  | error e => cases hend : atLineEnd (skipWs line) <;> simp [parseLine, hop, hend, eq_comm (a := x)]
  | ok op =>
    have hend := not_atLineEnd_of_operation hop
    cases hws : (((skipWs line).dropWhile Char.isAlpha).head?.map isWs).getD false with
    | false => simp [parseLine, hop, hend, hws]
    | true =>
      cases hreg : parseRegister ov op line (skipWs ((skipWs line).dropWhile Char.isAlpha)) <;>
        simp [parseLine, hop, hend, hws, hreg, eq_comm (a := x)]

/-! ### Blank lines and comments -/

theorem skipWs_blank {blank : List Char} (h : blank.all isWs = true) (rest : List Char) :
    skipWs (blank ++ rest) = skipWs rest :=
  List.dropWhile_append_of_pos (List.all_eq_true.mp h)

theorem takeWhile_comment {p : Char → Bool} (hp : p ';' = false) (l comment : List Char) :
    (l ++ ';' :: comment).takeWhile p = l.takeWhile p := by
  induction l with
  | nil => simp [hp]
  | cons c l ih => simp [List.takeWhile_cons, ih]

theorem dropWhile_comment {p : Char → Bool} (hp : p ';' = false) (l comment : List Char) :
    (l ++ ';' :: comment).dropWhile p = l.dropWhile p ++ ';' :: comment := by
  induction l with
  | nil => simp [hp]
  | cons c l ih =>
    rw [List.cons_append, List.dropWhile_cons, List.dropWhile_cons, ih]
    split <;> rfl

theorem skipWs_comment (l comment : List Char) : skipWs (l ++ ';' :: comment) = skipWs l ++ ';' :: comment :=
  dropWhile_comment (by decide) l comment

theorem atLineEnd_comment {l : List Char} (h : atLineEnd l = true) (comment : List Char) :
    atLineEnd (l ++ ';' :: comment) = true := by
  cases l with
  | nil => rfl
  | cons => exact h

theorem registerEnds_comment {l : List Char} (h : registerEnds l = true) (comment : List Char) :
    registerEnds (l ++ ';' :: comment) = true := by
  cases l with
  | nil => rfl
  | cons => exact h

theorem headIsWs_append {l : List Char} (h : (l.head?.map isWs).getD false = true) (rest : List Char) :
    ((l ++ rest).head?.map isWs).getD false = true := by
  cases l with
  | nil => cases h
  | cons => exact h

theorem parseOperand_comment {ov : LiteralOverflow} {line rest : List Char} {o : Operand}
    (h : parseOperand ov line rest = .ok o) (line' comment : List Char) :
    parseOperand ov line' (rest ++ ';' :: comment) = .ok o := by
  obtain ⟨afterComma, hcomma, htoken, hend⟩ := parseOperand_eq_ok.mp h
  refine parseOperand_eq_ok.mpr ⟨afterComma ++ ';' :: comment, by rw [skipWs_comment, hcomma, List.cons_append], ?_, ?_⟩
  · rwa [skipWs_comment, takeWhile_comment (by decide)]
  · rw [skipWs_comment, dropWhile_comment (by decide), skipWs_comment]
    exact atLineEnd_comment hend comment

theorem parseRegister_comment {ov : LiteralOverflow} {op : Operation} {line rest : List Char} {r : InstrRecord}
    (h : parseRegister ov op line rest = .ok r) (line' comment : List Char) :
    parseRegister ov op line' (rest ++ ';' :: comment) = .ok r := by
  obtain ⟨c, afterReg, rd, rfl, hreg, hends, hrest⟩ := parseRegister_eq_ok.mp h
  refine parseRegister_eq_ok.mpr
    ⟨c, afterReg ++ ';' :: comment, rd, List.cons_append, hreg, registerEnds_comment hends comment, ?_⟩
  rcases hrest with ⟨harity, hend, hr⟩ | ⟨harity, o, ho, hr⟩
  · exact .inl ⟨harity, skipWs_comment afterReg comment ▸ atLineEnd_comment hend comment, hr⟩
  · exact .inr ⟨harity, o, parseOperand_comment ho line' comment, hr⟩

theorem parseLine_comment {ov : LiteralOverflow} {line : List Char} {x : Option InstrRecord}
    (h : parseLine ov line = .ok x) (comment : List Char) : parseLine ov (line ++ ';' :: comment) = .ok x := by
  rcases parseLine_eq_ok.mp h with ⟨hend, hx⟩ | ⟨op, r, hop, hws, hreg, hx⟩
  · exact parseLine_eq_ok.mpr (.inl ⟨skipWs_comment line comment ▸ atLineEnd_comment hend comment, hx⟩)
  · refine parseLine_eq_ok.mpr (.inr ⟨op, r, ?_, ?_, ?_, hx⟩)
    · rwa [skipWs_comment, takeWhile_comment (by decide)]
    · rw [skipWs_comment, dropWhile_comment (by decide)]
      exact headIsWs_append hws _
    · rw [skipWs_comment, dropWhile_comment (by decide), skipWs_comment]
      exact parseRegister_comment hreg _ comment

/-- Settles O55: a comment ends every part of the grammar as the end of the line does. -/
theorem commentsAreLegal : Obligations.CommentsAreLegal := by
  have hblank : ∀ (ov : LiteralOverflow) (blank : List Char), blank.all isWs = true → parseLine ov blank = .ok none := by
    intro ov blank h
    have hskip := skipWs_blank h []
    rw [List.append_nil] at hskip
    exact parseLine_eq_ok.mpr (.inl ⟨by rw [hskip]; rfl, rfl⟩)
  exact ⟨hblank, fun ov blank comment h => parseLine_comment (hblank ov blank h) comment,
    fun ov line comment r _ h => parseLine_comment h comment⟩

/-! ### The comma before the comment -/

/-- The line has a comma that is not in its comment (R68). -/
def CommaBeforeComment (line : List Char) : Prop := ',' ∈ line.takeWhile (fun c => c != ';')

theorem commaBeforeComment_comma (l : List Char) : CommaBeforeComment (',' :: l) := List.mem_cons_self

theorem not_commaBeforeComment_of_atLineEnd {l : List Char} (h : atLineEnd l = true) : ¬CommaBeforeComment l := by
  cases l with
  | nil => exact List.not_mem_nil
  | cons c l =>
    rw [of_decide_eq_true h]
    exact List.not_mem_nil

theorem commaBeforeComment_cons {c : Char} (hcomma : c ≠ ',') (hcomment : c ≠ ';') (l : List Char) :
    CommaBeforeComment (c :: l) ↔ CommaBeforeComment l := by
  simp [CommaBeforeComment, hcomma.symm, hcomment]

/-- Skipping characters that are neither a comma nor a semicolon changes nothing. -/
theorem commaBeforeComment_dropWhile {p : Char → Bool} (hcomma : p ',' = false) (hcomment : p ';' = false)
    (l : List Char) : CommaBeforeComment (l.dropWhile p) ↔ CommaBeforeComment l := by
  induction l with
  | nil => rfl
  | cons c l ih =>
    rw [List.dropWhile_cons]
    split
    · next hc =>
      have hne {d : Char} (hd : p d = false) : c ≠ d := fun h => by simp [← h, hc] at hd
      rw [ih, commaBeforeComment_cons (hne hcomma) (hne hcomment)]
    · rfl

theorem commaBeforeComment_skipWs (l : List Char) : CommaBeforeComment (skipWs l) ↔ CommaBeforeComment l :=
  commaBeforeComment_dropWhile (by decide) (by decide) l

/-- A register's letter is no character that names no register, a comma or a semicolon say. -/
theorem register_letter_ne {c d : Char} {rd : Reg} (h : registerFromText [c] = .ok rd)
    (hd : ∀ r ∈ [Reg.a, .b, .c, .d], registerToText r ≠ [d].map Char.toUpper) : c ≠ d := by
  rintro rfl
  exact hd rd (mem_registers rd) ((registerFromText_eq_ok [c] rd).mp h)

theorem commaBeforeComment_iff_of_parseRegister {ov : LiteralOverflow} {op : Operation} {line rest : List Char}
    {r : InstrRecord} (h : parseRegister ov op line rest = .ok r) : CommaBeforeComment rest ↔ op.arity = .binary := by
  obtain ⟨c, afterReg, rd, rfl, hreg, _, hrest⟩ := parseRegister_eq_ok.mp h
  have hcomma : c ≠ ',' := register_letter_ne hreg (by decide)
  have hcomment : c ≠ ';' := register_letter_ne hreg (by decide)
  rw [commaBeforeComment_cons hcomma hcomment, ← commaBeforeComment_skipWs]
  rcases hrest with ⟨harity, hend, _⟩ | ⟨harity, o, ho, _⟩
  · simp [harity, not_commaBeforeComment_of_atLineEnd hend]
  · obtain ⟨afterComma, hskip, _⟩ := parseOperand_eq_ok.mp ho
    simp [harity, hskip, commaBeforeComment_comma]

/-- A line that parses has a comma before its comment exactly if its operation is binary. -/
theorem commaBeforeComment_iff_of_parseLine {ov : LiteralOverflow} {line : List Char} {x : Option InstrRecord}
    {op : Operation} (hop : operationFromText ((skipWs line).takeWhile Char.isAlpha) = .ok op)
    (h : parseLine ov line = .ok x) : CommaBeforeComment line ↔ op.arity = .binary := by
  rcases parseLine_eq_ok.mp h with ⟨hend, _⟩ | ⟨op', r, hop', _, hreg, _⟩
  · exact absurd (hend.symm.trans (not_atLineEnd_of_operation hop)) Bool.noConfusion
  · cases hop.symm.trans hop'
    rw [← commaBeforeComment_iff_of_parseRegister hreg, commaBeforeComment_skipWs,
      commaBeforeComment_dropWhile (by decide) (by decide), commaBeforeComment_skipWs]

/-- A parsed record has an operand exactly if its operation is binary (R68). -/
theorem wf_of_parseLine {ov : LiteralOverflow} {line : List Char} {r : InstrRecord}
    (h : parseLine ov line = .ok (some r)) : r.wf = true := by
  rcases parseLine_eq_ok.mp h with ⟨_, hx⟩ | ⟨op, r', _, _, hreg, hx⟩
  · cases hx
  · cases hx
    obtain ⟨_, _, rd, _, _, _, ⟨harity, _, rfl⟩ | ⟨harity, o, _, rfl⟩⟩ := parseRegister_eq_ok.mp hreg <;>
      simp [InstrRecord.wf, harity]

/-! ### Parsing all lines -/

theorem one_le_columnOf (line rest : List Char) : 1 ≤ columnOf line rest := Nat.le_add_left 1 _

theorem parseOperand_error_col {ov : LiteralOverflow} {line rest : List Char} {col : Nat}
    (h : parseOperand ov line rest = .error col) : ∃ part, col = columnOf line part := by
  simp only [parseOperand] at h
  split at h
  · split at h
    · split at h <;> cases h
      exact ⟨_, rfl⟩
    · cases h
      exact ⟨_, rfl⟩
  · cases h
    exact ⟨_, rfl⟩

theorem parseRegister_error_col {ov : LiteralOverflow} {op : Operation} {line rest : List Char} {col : Nat}
    (h : parseRegister ov op line rest = .error col) : ∃ part, col = columnOf line part := by
  cases rest with
  | nil =>
    cases h
    exact ⟨_, rfl⟩
  | cons c afterReg =>
    simp only [parseRegister] at h
    split at h
    · cases h
      exact ⟨_, rfl⟩
    · split at h
      · split at h
        · split at h <;> cases h
          exact ⟨_, rfl⟩
        · split at h <;> cases h
          next col hoperand => exact parseOperand_error_col hoperand
      · cases h
        exact ⟨_, rfl⟩

/-- A failing line names the column of one of its parts (log 14). -/
theorem parseLine_error_col {ov : LiteralOverflow} {line : List Char} {col : Nat}
    (h : parseLine ov line = .error col) : ∃ part, col = columnOf line part := by
  simp only [parseLine] at h
  split at h
  · cases h
  · split at h
    · cases h
      exact ⟨_, rfl⟩
    · split at h
      · split at h <;> cases h
        next col hreg => exact parseRegister_error_col hreg
      · cases h
        exact ⟨_, rfl⟩

theorem parseLines_eq_ok {ov : LiteralOverflow} {f : List Char → List InstrRecord}
    (hf : ∀ l r, parseLine ov l = .ok r → f l = r.toList) {n : Nat} {ls : List (List Char)} {rs : List InstrRecord}
    (h : parseLines ov n ls = .ok rs) : (∀ l ∈ ls, ∃ r, parseLine ov l = .ok r) ∧ rs = ls.flatMap f := by
  induction ls generalizing n rs with
  | nil =>
    cases h
    exact ⟨nofun, rfl⟩
  | cons l ls ih =>
    rw [parseLines] at h
    cases hl : parseLine ov l with
    | error col => simp [hl] at h
    | ok r =>
      cases hls : parseLines ov (n + 1) ls with
      | error e => simp [hl, hls] at h
      | ok rs' =>
        obtain ⟨hall, rfl⟩ := ih hls
        simp only [hl, hls, Except.ok.injEq] at h
        exact ⟨List.forall_mem_cons.mpr ⟨⟨r, hl⟩, hall⟩, by rw [← h, List.flatMap_cons, hf l r hl]⟩

/-- The record that a line parses to, if it is one (R66). -/
def lineRecord (ov : LiteralOverflow) (l : List Char) : Option InstrRecord := (parseLine ov l).toOption.join

theorem lineRecord_eq {ov : LiteralOverflow} {l : List Char} {x : Option InstrRecord} (h : parseLine ov l = .ok x) :
    lineRecord ov l = x := by
  simp [lineRecord, h, Except.toOption]

/-- Every record of a text that parses comes from one of its lines. -/
theorem exists_line_of_mem_parse {ov : LiteralOverflow} {text : List Char} {rs : List InstrRecord} {r : InstrRecord}
    (h : parse ov text = .ok rs) (hr : r ∈ rs) : ∃ l ∈ sourceLines text, parseLine ov l = .ok (some r) := by
  obtain ⟨hall, rfl⟩ := parseLines_eq_ok (f := fun l => (lineRecord ov l).toList)
    (fun l r hl => by rw [lineRecord_eq hl]) h
  obtain ⟨l, hmem, hl⟩ := List.mem_flatMap.mp hr
  obtain ⟨x, hx⟩ := hall l hmem
  rw [lineRecord_eq hx, Option.mem_toList] at hl
  exact ⟨l, hmem, hl ▸ hx⟩

/-- The first line that fails fails the text, at its own number and column (R74). -/
theorem parseLines_eq_error {ov : LiteralOverflow} {ls : List (List Char)} {k : Nat} {l : List Char} {col : Nat}
    (hk : ls[k]? = some l) (hl : parseLine ov l = .error col)
    (hbefore : ∀ j l', j < k → ls[j]? = some l' → ∃ r, parseLine ov l' = .ok r) (n : Nat) :
    parseLines ov n ls = .error (.syntaxError (n + k) col) := by
  induction ls generalizing k n with
  | nil => cases hk
  | cons l₀ ls ih =>
    cases k with
    | zero =>
      cases hk
      simp [parseLines, hl]
    | succ k =>
      obtain ⟨r, hr⟩ := hbefore 0 l₀ k.succ_pos rfl
      have htail := ih hk (fun j l' hj => hbefore (j + 1) l' (Nat.succ_lt_succ hj)) (n + 1)
      simp only [parseLines, hr, htail]
      rw [Nat.add_right_comm, Nat.add_assoc]

/-! ### The statements about lines -/

/-- Settles O54: what a line that parses has before its comment. -/
theorem arityIsEnforced : Obligations.ArityIsEnforced := by
  refine ⟨fun ov line op hop => ?_, fun ov text rs h r hr => ?_⟩
  · cases hline : parseLine ov line with
    | error col => exact ⟨fun _ _ => ⟨col, rfl⟩, fun _ _ => ⟨col, rfl⟩⟩
    | ok x =>
      have hiff := commaBeforeComment_iff_of_parseLine hop hline
      refine ⟨fun hunary hcomma => ?_, fun hbinary hcomma => absurd (hiff.mpr hbinary) hcomma⟩
      cases hunary.symm.trans (hiff.mp hcomma)
  · obtain ⟨l, _, hl⟩ := exists_line_of_mem_parse h hr
    exact wf_of_parseLine hl

/-- Settles O56: by induction over the lines, on either side of a failure. -/
theorem parserIsAllOrNothing : Obligations.ParserIsAllOrNothing := by
  intro ov text
  refine ⟨fun rs h => parseLines_eq_ok (fun l r hl => ?_) h, fun k l col hk hl hbefore => ⟨?_, ?_⟩⟩
  · rw [hl]
  · rw [Nat.add_comm]
    exact parseLines_eq_error hk hl hbefore 1
  · obtain ⟨part, rfl⟩ := parseLine_error_col hl
    exact one_le_columnOf l part

end Sys2Proof.Proofs
end

section
/-! SUPPORT. Proofs of the statements about the execution cycle (spec/40_execution_cycle.md): what a step does to the
invariant, to the counter and to the trace, on what its answer depends, and how far the sequencer runs a program. -/

namespace Sys2Proof.Proofs

open Sys2Proof.Machine Sys2Proof.Safety

/-! ### The trace record -/

/-- Emitting the trace record of an executed instruction restores the invariant (R92). -/
theorem emitTrace_consistent {u : State} (i : Instr) (w : Word) (hpc : u.pc = u.cycles) (hcycles : 1 ≤ u.cycles)
    (hfault : u.fault = false) (hraised : u.raised = none) (htrace : u.traceOut = none) :
    Consistent (u.emitTrace i w) where
  pc_cycles := by simp [hpc]
  raised_fault h := by simp [hraised] at h
  trace_current r h := by
    rw [State.emitTrace_traceOut, htrace] at h
    split at h
    · next htracing =>
      cases h
      simp [hcycles, hfault, htracing]
    · cases h

/-- Settles O9: every action but the execution of a word leaves no trace record, and that one emits the record of the state
it ends in. -/
theorem stepKeepsConsistent : Obligations.StepKeepsConsistent := by
  intro s t hs h
  rcases step_next_cases h with ⟨_, rfl⟩ | ⟨_, _, rfl⟩ | ⟨_, _, _, rfl⟩ | ⟨_, _, _, _, rfl⟩ |
    ⟨_, hf, _, i, u, _, hu, rfl⟩
  · exact consistent_of_no_outputs rfl rfl rfl
  · exact consistent_of_no_outputs hs.pc_cycles rfl rfl
  · exact consistent_of_no_outputs hs.pc_cycles rfl rfl
  · exact ⟨hs.pc_cycles, fun _ => rfl, nofun⟩
  · obtain ⟨hcycles, hpc, hfault, hraised, htrace, _⟩ := exec_next_frame hu
    exact emitTrace_consistent i _ (by simp [hpc, hcycles, hs.pc_cycles]) (by omega) (hfault.trans hf) hraised htrace

/-- Settles O22: the record is that of the state after `exec`, which has counted the instruction. -/
theorem traceRecordContents : Obligations.TraceRecordContents := by
  intro s i htracing hr hf hv hd
  obtain ⟨u, hu, hs⟩ := step_instr hr hf hv hd
  obtain ⟨hcycles, _, _, _, _, _, _, htr, _⟩ := exec_next_frame hu
  have hon : u.tracing = true := htr.trans htracing
  exact ⟨_, ⟨u.cycles, i, s.sample.instr, u.x, u.latch⟩, hs, by rw [State.emitTrace_traceOut, if_pos hon], hcycles, rfl,
    rfl, by simp, by simp⟩

/-! ### Executing an instruction -/

/-- Settles O16, by `exec_completes` and the frame. -/
theorem everyInstructionCompletes : Obligations.EveryInstructionCompletes := by
  intro i s
  obtain ⟨t, h⟩ := exec_completes i s
  exact ⟨t, h, exec_next_frame h⟩

/-- Settles O18: OUT writes the latch alone, and any other instruction its destination alone. -/
theorem noSideEffects : Obligations.NoSideEffects := by
  intro i s t h
  obtain ⟨_, _, hframe⟩ := exec_next_frame h
  rcases exec_cases i s with ⟨rd, rfl, hx⟩ | ⟨hop, v, hx⟩ <;> cases hx.symm.trans h
  · exact ⟨fun _ _ => rfl, fun _ _ => rfl, fun hne => absurd rfl hne, hframe⟩
  · exact ⟨fun r hr => State.reg_setReg_other s i.rd r v hr, fun hout => absurd hout hop, fun _ => rfl, hframe⟩

/-- Settles O23, by the unary template and the bytes NEG and NOT give. -/
theorem unaryInstructionResults : Obligations.UnaryInstructionResults := by
  intro rd s
  refine ⟨⟨_, exec_out rd s, rfl, fun _ => rfl, rfl, rfl, rfl, rfl, rfl, rfl, rfl, rfl, rfl⟩, ?_, ?_⟩
  · rw [← negByte_toNat]
    exact unaryOp_writes negByte rd s
  · rw [← notByte_toNat]
    exact unaryOp_writes notByte rd s

/-- Settles O38: the binary template reads both values before it writes. -/
theorem operandValueForms : Obligations.OperandValueForms := by
  intro s rd rs n
  obtain ⟨t, ht, hmov⟩ := binaryOp_writes (fun _ opv => opv) rd (.reg rs) s
  obtain ⟨u, hu, hadd⟩ := binaryOp_writes addByte rd (.reg rd) s
  exact ⟨rfl, rfl, ⟨t, ht, BitVec.eq_of_toNat_eq hmov.value⟩, ⟨u, hu, hadd.value.trans (addByte_toNat _ _)⟩⟩

/-! ### What a step's answer depends on -/

theorem reg_eq_of_sameBlock {s s' : State} (h : SameBlock s s') (r : Reg) : s'.reg r = s.reg r :=
  congrArg (fun x => x.get r) h.1

theorem operandValue_eq_of_sameBlock {s s' : State} (h : SameBlock s s') (o : Operand) :
    s'.operandValue o = s.operandValue o := by
  cases o with
  | imm n => rfl
  | reg rs => exact reg_eq_of_sameBlock h rs

/-- Blocks that agree step to blocks that agree when both execute the same instruction under the same parameters. The
destination and OUT's latch agree since the results do (O19), the rest since nothing else is written (O18). -/
theorem exec_sameBlock {i : Instr} {s s' u u' : State} (hb : SameBlock s s') (hp : s'.params = s.params)
    (hu : exec i s = .next u) (hu' : exec i s' = .next u') : SameBlock u u' := by
  obtain ⟨hrd, hout⟩ := resultDependsOnlyOnOperands i s' s u' u hp (reg_eq_of_sameBlock hb i.rd)
    (fun o _ => operandValue_eq_of_sameBlock hb o) hu' hu
  obtain ⟨hothers, _, hlatch, _⟩ := noSideEffects i s u hu
  obtain ⟨hothers', _, hlatch', _⟩ := noSideEffects i s' u' hu'
  obtain ⟨hcycles, hpc, hfault, _⟩ := exec_next_frame hu
  obtain ⟨hcycles', hpc', hfault', _⟩ := exec_next_frame hu'
  have hregs : ∀ r, u'.reg r = u.reg r := fun r => by
    by_cases hr : r = i.rd
    · rw [hr, hrd]
    · rw [hothers r hr, hothers' r hr, reg_eq_of_sameBlock hb]
  obtain ⟨_, hbl, hbc, hbp, hbf⟩ := hb
  have hl : u'.latch = u.latch := by
    by_cases hop : i.op = .out
    · exact hout hop
    · rw [hlatch hop, hlatch' hop, hbl]
  exact ⟨RegFile.eq_of_get _ _ hregs, hl, by rw [hcycles', hcycles, hbc], by rw [hpc', hpc, hbp],
    by rw [hfault', hfault, hbf]⟩

/-- Settles O20: the action is chosen by the ports, the fault bit and the decoder, and each keeps the agreement. -/
theorem stepIsAFunctionOfBlockAndPorts : Obligations.StepIsAFunctionOfBlockAndPorts := by
  intro s s' t hb hp hsample h
  have hbf : s'.fault = s.fault := hb.2.2.2.2
  rcases step_next_cases h with ⟨hr, rfl⟩ | ⟨hr, hf, rfl⟩ | ⟨hr, hf, hv, rfl⟩ | ⟨hr, hf, hv, hd, rfl⟩ |
      ⟨hr, hf, hv, i, u, hd, hu, rfl⟩ <;>
    rw [← hsample] at hr
  · exact ⟨_, step_reset hr, ⟨rfl, rfl, rfl, rfl, rfl⟩, rfl⟩
  · exact ⟨_, step_held hr (hbf.trans hf), hb, rfl⟩
  · rw [← hsample] at hv
    exact ⟨_, step_idle hr hv, hb, rfl⟩
  · rw [← hsample, ← hp] at hd
    rw [← hsample] at hv
    obtain ⟨hx, hl, hc, hpc, _⟩ := hb
    exact ⟨_, step_illegal hr (hbf.trans hf) hv hd, ⟨hx, hl, hc, hpc, rfl⟩, by simp [hsample, hpc]⟩
  · rw [← hsample, ← hp] at hd
    rw [← hsample] at hv
    obtain ⟨u', hu', hs'⟩ := step_instr hr (hbf.trans hf) hv hd
    obtain ⟨_, _, _, hraised, _⟩ := exec_next_frame hu
    obtain ⟨_, _, _, hraised', _⟩ := exec_next_frame hu'
    obtain ⟨hx, hl, hc, hpc, hfault⟩ := exec_sameBlock (s := s.beginStep) (s' := s'.beginStep) hb hp hu hu'
    exact ⟨_, hs', by simp [SameBlock, hx, hl, hc, hpc, hfault], by simp [hraised, hraised']⟩

/-- Settles O21: the switch is neither the block nor a port nor a parameter (O20); and the one action that emits a record
raises nothing. -/
theorem tracingChangesNothing : Obligations.TracingChangesNothing := by
  refine ⟨fun s t b h => ?_, fun s t h hne => ?_⟩
  · exact stepIsAFunctionOfBlockAndPorts s { s with tracing := b } t ⟨rfl, rfl, rfl, rfl, rfl⟩ rfl rfl h
  · rcases step_next_cases h with ⟨_, rfl⟩ | ⟨_, _, rfl⟩ | ⟨_, _, _, rfl⟩ | ⟨_, _, _, _, rfl⟩ |
      ⟨_, _, _, i, u, _, hu, rfl⟩
    case inr.inr.inr.inr =>
      obtain ⟨_, _, _, hraised, _⟩ := exec_next_frame hu
      simp [hraised] at hne
    all_goals rfl

/-! ### What a step counts -/

/-- A step that executes an instruction counts it and advances the index (R87, R88). -/
theorem step_legal {s : State} (hr : s.sample.rst = false) (hf : s.fault = false) (hv : s.sample.instrValid = true)
    (hl : Legal s.params s.sample.instr) :
    ∃ t, step s = .next t ∧ t.cycles = s.cycles + 1 ∧ t.pc = s.pc + 1 ∧ t.fault = false := by
  obtain ⟨i, hd⟩ := hl
  obtain ⟨u, hu, hs⟩ := step_instr hr hf hv hd
  obtain ⟨hcycles, hpc, hfault, _⟩ := exec_next_frame hu
  exact ⟨_, hs, by simp [hcycles], by simp [hpc], by simp [hfault, hf]⟩

/-- Settles O17, by the action the step took. -/
theorem stepCountsExecutedInstructions : Obligations.StepCountsExecutedInstructions := by
  intro s t h hr
  refine ⟨fun ⟨hf, hv, hl⟩ => ?_, fun hnone => ?_⟩
  · obtain ⟨t', ht', hcycles, hpc, _⟩ := step_legal hr hf hv hl
    cases ht'.symm.trans h
    exact ⟨hcycles, hpc⟩
  · rcases step_next_cases h with ⟨hr', _⟩ | ⟨_, _, rfl⟩ | ⟨_, _, _, rfl⟩ | ⟨_, _, _, _, rfl⟩ |
      ⟨_, hf, hv, i, u, hd, _, _⟩
    · simp [hr] at hr'
    · exact ⟨rfl, rfl⟩
    · exact ⟨rfl, rfl⟩
    · exact ⟨rfl, rfl⟩
    · simp [hf, hv, hd] at hnone

/-! ### The word of a decoded instruction -/

theorem instrOf_op (op : Operation) (rd : Reg) (src : Operand) : (instrOf op rd src).op = op := by
  cases op <;> rfl

theorem instrOf_rd (op : Operation) (rd : Reg) (src : Operand) : (instrOf op rd src).rd = rd := by
  cases op <;> rfl

/-- The opcode and the destination field are all of a word above bit 8 (R49, R52). -/
theorem opField_rdField_sum {m : EncMode} {w : Word} (hfit : wordFits m w = true) :
    opField m w * 2048 + (rdField w).code * 512 = w.toNat / 512 * 512 := by
  rw [rdField_eq, Reg.code_ofCode]
  cases m with
  | truncate5 =>
    have hlt := (wordFits_truncate5 w).mp hfit
    rw [opField_truncate5]
    omega
  | widen6 =>
    rw [opField_widen6]
    omega

/-- Encoding what a word decodes to keeps the word above bit 8, and the rest is the operand's (R50). -/
theorem encode_of_decode {p : Params} {m : EncMode} {w : Word} {i : Instr} (hm : p.enc = .mode m)
    (h : decode p w = .instr i) :
    (encode m p.map i).toNat = w.toNat / 512 * 512 + operandBits i.operand ∧
      (i.operand = none ∨ i.operand = some (operandField w)) := by
  obtain ⟨hfit, op, hop, rfl⟩ := decodeMode_instr m p.map w i ((decode_mode p m w hm).symm.trans h)
  refine ⟨?_, (instrOf_operand op (rdField w) (operandField w)).symm.imp_left And.left⟩
  rw [encode_toNat, instrOf_op, instrOf_rd, fieldCode_of_operationsAt m p.map _ op hop, opField_rdField_sum hfit]

/-- An immediate operand comes from a word with bit 8 set, and stands in `w[7:0]` (R53, R54). -/
theorem operandField_eq_imm {w : Word} {n : Byte} (h : operandField w = .imm n) :
    w.toNat / 256 % 2 = 1 ∧ n.toNat = w.toNat % 256 := by
  rw [operandField_eq] at h
  split at h
  · next h8 =>
    cases h
    exact ⟨h8, BitVec.toNat_ofNat _ _⟩
  · cases h

/-- Settles O46: the encoder writes the operand's bits of each form and 0 in the rest of `w[8:0]`. -/
theorem encodeOfDecodedClearsDontCareBits : Obligations.EncodeOfDecodedClearsDontCareBits := by
  intro p m w i hm h
  obtain ⟨hsum, hfield⟩ := encode_of_decode hm h
  refine ⟨fun ho => ?_, fun n ho => ?_, fun rs ho => ?_⟩ <;> rw [ho] at hfield
  · rw [hsum, ho, operandBits, Nat.add_zero]
  · obtain ⟨h8, hn⟩ := operandField_eq_imm (Option.some.inj (hfield.resolve_left nofun)).symm
    apply BitVec.eq_of_toNat_eq
    rw [hsum, ho, operandBits, hn]
    omega
  · obtain ⟨h8, hrs⟩ := operandField_eq_reg (Option.some.inj (hfield.resolve_left nofun)).symm
    rw [hsum, ho, operandBits, hrs]
    clear hsum
    omega

/-! ### Runs -/

/-- With no explicit port sample pending, the ports carry `P[pc]` and no reset (R80). -/
theorem sample_of_fetch {s : State} {w : Word} (hi : s.inputs = []) (hw : s.program[s.pc]? = some w) :
    s.sample.rst = false ∧ s.sample.instrValid = true ∧ s.sample.instr = w := by
  simp [State.sample_fetch s w hi hw]

/-- Settles O4: the sampled word is `P[pc]`. -/
theorem sequencedStepRunsDecodedWord : Obligations.SequencedStepRunsDecodedWord := by
  intro s w hi hf hw
  obtain ⟨hr, hv, rfl⟩ := sample_of_fetch hi hw
  exact ⟨step_illegal hr hf hv, fun _ => step_instr hr hf hv⟩

/-- The sequencer executes a legal word at `pc`, and stands before the next one in the same program. -/
theorem step_legal_sequenced {s : State} {w : Word} (hs : Sequenced s) (hf : s.fault = false)
    (hw : s.program[s.pc]? = some w) (hl : Legal s.params w) :
    ∃ t, step s = .next t ∧ Sequenced t ∧ t.fault = false ∧ t.pc = s.pc + 1 ∧ t.cycles = s.cycles + 1 ∧
      t.program = s.program ∧ t.params = s.params := by
  obtain ⟨hr, hv, rfl⟩ := sample_of_fetch hs.1 hw
  obtain ⟨t, ht, hcycles, hpc, hfault⟩ := step_legal hr hf hv hl
  obtain ⟨hprog, _, _, hparams⟩ := step_next_surroundings ht
  exact ⟨t, ht, step_keeps_sequenced hs ht, hfault, hpc, hcycles, hprog, hparams⟩

/-- `k` legal words from `pc` on are executed in `k` steps, each counted. -/
theorem run_legal_words (k : Nat) {s : State} (hs : Sequenced s) (hf : s.fault = false)
    (hk : s.pc + k ≤ s.program.length)
    (hl : ∀ j v, s.pc ≤ j → j < s.pc + k → s.program[j]? = some v → Legal s.params v) :
    ∃ t, run k s = .next t ∧ Sequenced t ∧ t.fault = false ∧ t.pc = s.pc + k ∧ t.cycles = s.cycles + k ∧
      t.program = s.program ∧ t.params = s.params := by
  induction k generalizing s with
  | zero => exact ⟨s, rfl, hs, hf, rfl, rfl, rfl, rfl⟩
  | succ k ih =>
    have hw : s.program[s.pc]? = some s.program[s.pc] := List.getElem?_eq_getElem (by omega)
    obtain ⟨u, hu, hsu, hfu, hpc, hcycles, hprog, hparams⟩ :=
      step_legal_sequenced hs hf hw (hl s.pc _ le_rfl (by omega) hw)
    obtain ⟨t, ht, hst, hft, hpct, hcyclest, hprogt, hparamst⟩ := ih hsu hfu (by rw [hprog]; omega) (by
      rw [hprog, hparams]
      exact fun j v hle hlt => hl j v (by omega) (by omega))
    exact ⟨t, (run_succ_of_step k s u hu).trans ht, hst, hft, by omega, by omega, hprogt.trans hprog,
      hparamst.trans hparams⟩

/-- Settles O50: `run_legal_words` for all the words that are left. -/
theorem legalRunCompletes : Obligations.LegalRunCompletes := by
  intro s hs hf hl
  have hle := hs.2
  obtain ⟨t, ht, _, hft, hpc, hcycles, hprog, _⟩ :=
    run_legal_words (s.program.length - s.pc) hs hf (by omega) fun j v hj _ hv => hl v <| by
      refine List.mem_of_getElem? (i := j - s.pc) ?_
      rw [List.getElem?_drop, Nat.add_sub_cancel' hj, hv]
  exact ⟨t, ht, ⟨by rw [hpc, hprog]; omega, hft⟩, hcycles⟩

/-- A run with `n` words left ends within `n` steps: the next word is illegal and faults, or is executed. -/
theorem exists_run_completed_or_faulted (n : Nat) {s : State} (hn : s.program.length - s.pc = n) (hs : Sequenced s)
    (hp : Decodable s.params) (hw : ∀ w ∈ s.program, Fits s.params w) :
    ∃ k t, k ≤ n ∧ run k s = .next t ∧ (Completed t ∨ Faulted t) := by
  induction n generalizing s with
  | zero =>
    have hle := hs.2
    refine ⟨0, s, le_rfl, rfl, ?_⟩
    cases hf : s.fault with
    | true => exact .inr hf
    | false => exact .inl ⟨by omega, hf⟩
  | succ n ih =>
    cases hf : s.fault with
    | true => exact ⟨0, s, Nat.zero_le _, rfl, .inr hf⟩
    | false =>
      have hlt : s.pc < s.program.length := by omega
      have hfetch : s.program[s.pc]? = some s.program[s.pc] := List.getElem?_eq_getElem hlt
      cases hd : decode s.params s.program[s.pc] with
      | refused why => exact absurd hd (decode_not_refused hp (hw _ (List.getElem_mem hlt)) why)
      | illegal =>
        have hstep := (sequencedStepRunsDecodedWord s _ hs.1 hf hfetch).1 hd
        exact ⟨1, _, Nat.le_add_left 1 n, run_succ_of_step 0 s _ hstep, .inr rfl⟩
      | instr i =>
        obtain ⟨u, hu, hsu, _, hpc, _, hprog, hparams⟩ := step_legal_sequenced hs hf hfetch ⟨i, hd⟩
        obtain ⟨k, t, hk, ht, hend⟩ :=
          ih (by rw [hprog, hpc]; omega) hsu (hparams ▸ hp) (by rw [hprog, hparams]; exact hw)
        exact ⟨k + 1, t, Nat.succ_le_succ hk, (run_succ_of_step k s u hu).trans ht, hend⟩

/-- Settles O52, by induction on the number of words left; a completed state has `fault = 0` and a faulted one 1. -/
theorem everyRunEnds : Obligations.EveryRunEnds := by
  intro s hs hp hw
  obtain ⟨k, t, hk, ht, hend⟩ := exists_run_completed_or_faulted _ rfl hs hp hw
  refine ⟨k, t, hk, ht, hend, fun ⟨⟨_, hf⟩, hfault⟩ => ?_⟩
  cases hf.symm.trans hfault

end Sys2Proof.Proofs
end

section
/-! SUPPORT. Proof of the statement about NEG (spec/41_unary.md R101): the byte function is an involution with two fixed
points and negates the signed reading, and the instruction applies it once. -/

namespace Sys2Proof.Proofs

open Sys2Proof.Machine

theorem negByte_negByte (v : Byte) : negByte (negByte v) = v := by
  have := v.isLt
  apply BitVec.eq_of_toNat_eq
  rw [negByte_toNat, negByte_toNat]
  omega

/-- A byte is its own negative mod 256 when twice it is 0 or 256 (corner cases (a) and (b)). -/
theorem negByte_eq_self_iff (v : Byte) : negByte v = v ↔ v = 0x00 ∨ v = 0x80 := by
  have := v.isLt
  simp only [BitVec.toNat_eq, negByte_toNat, BitVec.reduceToNat]
  omega

/-- Every value but -128 has its negative in the signed range (corner case (c)). -/
theorem s8_negByte {v : Byte} (h : v ≠ 0x80) : s8 (negByte v) = -s8 v := by
  have := v.isLt
  have h128 : v.toNat ≠ 128 := fun hv => h (BitVec.eq_of_toNat_eq hv)
  rw [s8_eq, s8_eq, negByte_toNat]
  split <;> split <;> omega

/-- NEG puts the negated byte in its register and counts one instruction. -/
theorem exec_neg_completes (rd : Reg) (s : State) :
    ∃ t, exec (.neg rd) s = .next t ∧ t.reg rd = negByte (s.reg rd) ∧ t.cycles = s.cycles + 1 := by
  obtain ⟨t, ht, hw⟩ := unaryOp_writes negByte rd s
  exact ⟨t, ht, BitVec.eq_of_toNat_eq hw.value, hw.cycles⟩

/-- Settles O24: two runs of NEG apply `negByte` twice, and the first alone gives the fixed points and the sign. -/
theorem negIsAnInvolution : Obligations.NegIsAnInvolution := by
  intro rd s
  obtain ⟨t, ht, hreg, hcycles⟩ := exec_neg_completes rd s
  obtain ⟨u, hu, hreg', hcycles'⟩ := exec_neg_completes rd t
  refine ⟨t, u, ht, hu, ?_, by omega, ?_, fun h => ?_⟩
  · rw [hreg', hreg, negByte_negByte]
  · rw [hreg, negByte_eq_self_iff]
  · rw [hreg, s8_negByte h]

end Sys2Proof.Proofs
end

section
/-! SUPPORT. Proofs of the statements about MOV (spec/42_move.md R103), and of the instructions that do the same: the byte
functions are +, -, * and complement of 8-bit words, and laws of these operations relate the results. -/

namespace Sys2Proof.Proofs

open Sys2Proof.Machine Sys2Proof.Safety

theorem addByte_eq_add (wv opv : Byte) : addByte wv opv = wv + opv :=
  BitVec.eq_of_toNat_eq (by rw [addByte_toNat, BitVec.toNat_add])

theorem subByte_eq_sub (wv opv : Byte) : subByte wv opv = wv - opv :=
  BitVec.eq_of_toNat_eq (by rw [subByte_toNat, BitVec.toNat_sub]; omega)

theorem mulByte_eq_mul (wv opv : Byte) : mulByte wv opv = wv * opv :=
  BitVec.eq_of_toNat_eq (by rw [mulByte_toNat, BitVec.toNat_mul])

theorem notByte_eq_not (v : Byte) : notByte v = ~~~v :=
  BitVec.eq_of_toNat_eq (by rw [notByte_toNat, BitVec.toNat_not])

/-- R103 (c): 0xFF is the word of eight ones. -/
theorem xor_0xFF_eq_notByte (v : Byte) : v ^^^ 0xFF = notByte v := by
  rw [notByte_eq_not]
  exact BitVec.xor_allOnes

/-- A binary instruction does what a unary one does when it applies the same result to the same register. -/
theorem binaryOp_eq_unaryOp (f : Byte → Byte → Byte) (g : Byte → Byte) (rd : Reg) (o : Operand) (s : State)
    (h : f (s.reg rd) (s.operandValue o) = g (s.reg rd)) : binaryOp f rd o s = unaryOp g rd s := by
  simp only [binaryOp, unaryOp, h]

/-- An instruction of the binary template does what a MOV to its destination does when its result is the moved value. -/
theorem binaryOp_eq_mov (f : Byte → Byte → Byte) (rd : Reg) (o p : Operand) (s : State)
    (h : f (s.reg rd) (s.operandValue o) = s.operandValue p) : binaryOp f rd o s = exec (.mov rd p) s :=
  binaryOp_eq_of_result f (fun _ opv => opv) rd o p s h

/-- MOV writes its operand to the destination and nothing else. -/
theorem exec_mov_writes (rd : Reg) (src : Operand) (s : State) :
    ∃ t, exec (.mov rd src) s = .next t ∧ WritesRegister s t rd (s.operandValue src).toNat :=
  binaryOp_writes (fun _ opv => opv) rd src s

/-- Settles O25: the two forms of the operand. -/
theorem movCopiesOperand : Obligations.MovCopiesOperand := by
  intro rd s
  exact ⟨fun n => exec_mov_writes rd (.imm n) s, fun rs => exec_mov_writes rd (.reg rs) s⟩

/-- Settles O40: in each pair both instructions are one template, and their results are equal by a law of 8-bit words. -/
theorem equivalentInstructions : Obligations.EquivalentInstructions := by
  intro r s
  refine ⟨?not, ?neg, ?subSelf, ?xorSelf, ?andZero, ?mulZero, ?andSelf, ?orSelf, ?addZero⟩
  case not => exact binaryOp_eq_unaryOp _ notByte r (.imm 0xFF) s (xor_0xFF_eq_notByte _)
  case neg =>
    intro n
    refine binaryOp_eq_of_result subByte addByte r (.imm n) (.imm (-n)) s ?_
    rw [subByte_eq_sub, addByte_eq_add]
    exact BitVec.sub_eq_add_neg ..
  case subSelf => exact binaryOp_eq_mov _ r (.reg r) (.imm 0) s ((subByte_eq_sub _ _).trans (BitVec.sub_self _))
  case xorSelf => exact binaryOp_eq_mov _ r (.reg r) (.imm 0) s BitVec.xor_self
  case andZero => exact binaryOp_eq_mov _ r (.imm 0) (.imm 0) s BitVec.and_zero
  case mulZero => exact binaryOp_eq_mov _ r (.imm 0) (.imm 0) s ((mulByte_eq_mul _ _).trans BitVec.mul_zero)
  case andSelf => exact binaryOp_eq_mov _ r (.reg r) (.reg r) s BitVec.and_self
  case orSelf => exact binaryOp_eq_mov _ r (.reg r) (.reg r) s BitVec.or_self
  case addZero => exact binaryOp_eq_mov _ r (.imm 0) (.reg r) s ((addByte_eq_add _ _).trans (BitVec.add_zero _))

end Sys2Proof.Proofs
end

section
/-! SUPPORT. Proofs of the statements about ADD, SUB, MUL and IMUL (spec/43_arithmetic.md): the signed reading of each
result, from which IMUL's exactness and the set where its two modes differ follow by linear arithmetic. -/

namespace Sys2Proof.Proofs

open Sys2Proof.Machine Sys2Proof.Safety

/-! ### ADD, SUB, MUL -/

/-- The binary template answers a next state whose destination holds `f(wv, opv)`. -/
theorem binaryOp_result (f : Byte → Byte → Byte) (rd : Reg) (src : Operand) (s : State) :
    ∃ t, binaryOp f rd src s = .next t ∧ t.reg rd = f (s.reg rd) (s.operandValue src) := by
  obtain ⟨t, ht, hw⟩ := binaryOp_writes f rd src s
  exact ⟨t, ht, BitVec.eq_of_toNat_eq hw.value⟩

theorem s8_eq_toInt (v : Byte) : s8 v = v.toInt := by
  rw [s8_eq, BitVec.toInt_eq_toNat_cond]
  split <;> split <;> omega

theorem s8_addByte (wv opv : Byte) : s8 (addByte wv opv) = (s8 wv + s8 opv).bmod 256 := by
  simp only [s8_eq_toInt, addByte_eq_add]
  exact BitVec.toInt_add wv opv

theorem s8_subByte (wv opv : Byte) : s8 (subByte wv opv) = (s8 wv - s8 opv).bmod 256 := by
  simp only [s8_eq_toInt, subByte_eq_sub]
  exact BitVec.toInt_sub

theorem s8_mulByte (wv opv : Byte) : s8 (mulByte wv opv) = (s8 wv * s8 opv).bmod 256 := by
  simp only [s8_eq_toInt, mulByte_eq_mul]
  exact BitVec.toInt_mul wv opv

/-- An instruction of the binary template is right mod 256 under the signed reading when its result is, as a signed byte,
the balanced remainder of the true one. -/
theorem binaryOp_signed_congr {f : Byte → Byte → Byte} {g : Int → Int → Int}
    (hf : ∀ wv opv, s8 (f wv opv) = (g (s8 wv) (s8 opv)).bmod 256) (rd : Reg) (src : Operand) (s : State) :
    ∃ t, binaryOp f rd src s = .next t ∧ (s8 (t.reg rd) - g (s8 (s.reg rd)) (s8 (s.operandValue src))) % 256 = 0 := by
  obtain ⟨t, ht, hreg⟩ := binaryOp_result f rd src s
  refine ⟨t, ht, ?_⟩
  rw [hreg, hf]
  exact Int.emod_eq_emod_iff_emod_sub_eq_zero.mp Int.bmod_emod

/-! ### IMUL -/

theorem exec_imul_of_mode {s : State} {mode : ImulMode} (h : s.params.imul = mode) (rd : Reg) (src : Operand) :
    exec (.imul rd src) s = binaryOp (imulByte mode) rd src s := by
  rw [exec_imul, h]

/-- Setting IMUL_MODE changes no register, so IMUL reads its operands as from `s`. -/
theorem exec_imul_with_mode (mode : ImulMode) (rd : Reg) (src : Operand) (s : State) :
    ∃ t, exec (.imul rd src) { s with params := { s.params with imul := mode } } = .next t ∧
      t.reg rd = imulByte mode (s.reg rd) (s.operandValue src) := by
  obtain ⟨t, ht, hreg⟩ := binaryOp_result (imulByte mode) rd src { s with params := { s.params with imul := mode } }
  cases src <;> exact ⟨t, ht, hreg⟩

theorem msb_toNat (v : Byte) : v.msb.toNat = v.toNat / 128 := by
  have := v.isLt
  have hm : v.msb = decide (128 ≤ v.toNat) := BitVec.msb_eq_decide v
  rw [hm]
  by_cases h : 128 ≤ v.toNat <;> simp [h] <;> omega

/-- The XOR of the signs is the sum mod 2 of the two bits 7. -/
theorem msb_xor_toNat (wv opv : Byte) : (wv.msb ^^ opv.msb).toNat = (wv.toNat / 128 + opv.toNat / 128) % 2 := by
  rw [← msb_toNat, ← msb_toNat]
  cases wv.msb <;> cases opv.msb <;> rfl

theorem xor_toNat (a b : Bool) : (a ^^ b).toNat = if a = b then 0 else 1 := by
  cases a <;> cases b <;> rfl

/-- The signed reading is the absolute value with the sign of bit 7. -/
theorem s8_eq_natAbs (v : Byte) : s8 v = if v.msb then -((s8 v).natAbs : Int) else (s8 v).natAbs := by
  have hm : v.msb = decide (s8 v < 0) := by rw [s8_eq_toInt, BitVec.msb_eq_toInt]
  simp only [hm, decide_eq_true_eq]
  split <;> omega

/-- The true signed product is the product of the absolute values, negative where the signs differ. -/
theorem s8_mul_s8 (wv opv : Byte) :
    s8 wv * s8 opv =
      if wv.msb = opv.msb then (((s8 wv).natAbs * (s8 opv).natAbs : Nat) : Int)
      else -(((s8 wv).natAbs * (s8 opv).natAbs : Nat) : Int) := by
  rw [Nat.cast_mul]
  conv_lhs => rw [s8_eq_natAbs wv, s8_eq_natAbs opv]
  cases wv.msb <;> cases opv.msb <;> simp

/-- Bits [6:0] of a byte are its signed reading mod 128. -/
theorem toNat_mod_128 (v : Byte) : ((v.toNat % 128 : Nat) : Int) = s8 v % 128 := by
  rw [s8_eq]
  split <;> omega

/-- Under `SignBitOr` the low 7 bits are the true product's, and bit 7 weighs -128. -/
theorem s8_imulSignBitOr (wv opv : Byte) :
    s8 (imulSignBitOr wv opv) = s8 wv * s8 opv % 128 - if wv.msb = opv.msb then 0 else 128 := by
  have hp : (((wv.toNat % 128) * (opv.toNat % 128) % 128 : Nat) : Int) = s8 wv * s8 opv % 128 := by
    rw [Int.natCast_mod, Nat.cast_mul, toNat_mod_128, toNat_mod_128]
    exact (Int.mul_emod ..).symm
  rw [s8_eq, imulSignBitOr_toNat, xor_toNat, ← hp]
  by_cases hsign : wv.msb = opv.msb
  · simp only [if_pos hsign]
    omega
  · simp only [if_neg hsign]
    omega

/-- The formula of R108 over absolute values. -/
theorem imulTwosNegate_toNat_natAbs (wv opv : Byte) :
    (imulTwosNegate wv opv).toNat =
      if wv.msb = opv.msb then (s8 wv).natAbs * (s8 opv).natAbs % 128
      else (256 - (s8 wv).natAbs * (s8 opv).natAbs % 128) % 256 := by
  rw [imulTwosNegate_toNat, magnitude_eq_natAbs, magnitude_eq_natAbs]
  cases wv.msb <;> cases opv.msb <;> rfl

theorem s8_imulTwosNegate (wv opv : Byte) :
    s8 (imulTwosNegate wv opv) =
      if wv.msb = opv.msb then (((s8 wv).natAbs * (s8 opv).natAbs % 128 : Nat) : Int)
      else -(((s8 wv).natAbs * (s8 opv).natAbs % 128 : Nat) : Int) := by
  rw [s8_eq, imulTwosNegate_toNat_natAbs]
  by_cases hsign : wv.msb = opv.msb
  · simp only [if_pos hsign]
    omega
  · simp only [if_neg hsign]
    omega

theorem s8_imulSignBitOr_of_inRange {wv opv : Byte} (hlo : -128 ≤ s8 wv * s8 opv) (hhi : s8 wv * s8 opv ≤ 127)
    (h0 : s8 wv * s8 opv ≠ 0) : s8 (imulSignBitOr wv opv) = s8 wv * s8 opv := by
  have hmul := s8_mul_s8 wv opv
  rw [s8_imulSignBitOr]
  by_cases hsign : wv.msb = opv.msb
  · rw [if_pos hsign] at hmul ⊢
    omega
  · rw [if_neg hsign] at hmul ⊢
    omega

/-- Where the signs differ and the product vanishes mod 128, only the sign bit is left under `SignBitOr`. -/
theorem imulSignBitOr_eq_0x80 {wv opv : Byte} (hsign : wv.msb ≠ opv.msb) (h0 : s8 wv * s8 opv % 128 = 0) :
    imulSignBitOr wv opv = 0x80 := by
  apply BitVec.eq_of_toInt_eq
  rw [← s8_eq_toInt, s8_imulSignBitOr, if_neg hsign, h0]
  rfl

theorem imulTwosNegate_eq_0x00 {wv opv : Byte} (h0 : (s8 wv).natAbs * (s8 opv).natAbs % 128 = 0) :
    imulTwosNegate wv opv = 0x00 := by
  apply BitVec.eq_of_toInt_eq
  rw [← s8_eq_toInt, s8_imulTwosNegate, h0]
  split <;> rfl

/-- For equal signs both modes give the low 7 bits of the product; for different ones both give them negated, but for 0,
whose negative has no sign bit. -/
theorem imulSignBitOr_ne_imulTwosNegate_iff (wv opv : Byte) :
    imulSignBitOr wv opv ≠ imulTwosNegate wv opv ↔
      wv.msb ≠ opv.msb ∧ (s8 wv).natAbs * (s8 opv).natAbs % 128 = 0 := by
  rw [Ne, ← BitVec.toInt_inj, ← s8_eq_toInt, ← s8_eq_toInt, s8_imulSignBitOr, s8_imulTwosNegate, s8_mul_s8]
  generalize (s8 wv).natAbs * (s8 opv).natAbs = n
  by_cases hsign : wv.msb = opv.msb
  · simp only [hsign, if_true, ne_eq, not_true, false_and, iff_false]
    omega
  · simp only [hsign, if_false, ne_eq, not_false_iff, true_and]
    omega

/-- On the divergent set of R108 the true product is 0 mod 128 as well. -/
theorem s8_mul_s8_emod_128 {wv opv : Byte} (h0 : (s8 wv).natAbs * (s8 opv).natAbs % 128 = 0) :
    s8 wv * s8 opv % 128 = 0 := by
  have hmul := s8_mul_s8 wv opv
  split at hmul <;> omega

/-! ### The statements -/

/-- Settles O27: `subByte_toNat` in integers. -/
theorem subWraps : Obligations.SubWraps := by
  intro rd src s
  obtain ⟨t, ht, hw⟩ := binaryOp_writes subByte rd src s
  refine ⟨t, _, ht, hw, ?_⟩
  have := (s.operandValue src).isLt
  rw [subByte_toNat]
  omega

/-- Settles O28: the binary template with `mulByte`. -/
theorem mulKeepsLowByte : Obligations.MulKeepsLowByte := by
  intro rd src s
  rw [exec_mul, ← mulByte_toNat]
  exact binaryOp_writes mulByte rd src s

/-- Settles O29: the signed reading of each result is the balanced remainder mod 256 of the true one. -/
theorem signedReadingsAgree : Obligations.SignedReadingsAgree := by
  intro rd src s
  exact ⟨binaryOp_signed_congr s8_addByte rd src s, binaryOp_signed_congr s8_subByte rd src s,
    binaryOp_signed_congr s8_mulByte rd src s⟩

/-- Settles O30: the binary template with `imulSignBitOr`, the XOR of the signs read from the two bits 7. -/
theorem imulSignBitOrFormula : Obligations.ImulSignBitOrFormula := by
  intro rd src s hmode
  rw [exec_imul_of_mode hmode, ← msb_xor_toNat, ← imulSignBitOr_toNat]
  exact binaryOp_writes imulSignBitOr rd src s

/-- Settles O31: a product in range is its low 7 bits plus the weight of its sign bit; a zero leaves only the sign bit. -/
theorem imulExactWhenInRange : Obligations.ImulExactWhenInRange := by
  intro rd src s hmode
  obtain ⟨t, ht, hreg⟩ := binaryOp_result imulSignBitOr rd src s
  refine ⟨t, (exec_imul_of_mode hmode rd src).trans ht, fun hlo hhi h0 => ?_, fun h0 hsign => ?_⟩
  · rw [hreg, s8_imulSignBitOr_of_inRange hlo hhi h0]
  · rw [hreg, imulSignBitOr_eq_0x80 hsign (by rw [h0]; rfl)]

/-- Settles O32: the binary template with `imulTwosNegate`, its magnitudes being absolute values. -/
theorem imulTwosNegateFormula : Obligations.ImulTwosNegateFormula := by
  intro rd src s hmode
  obtain ⟨t, ht, hw⟩ := binaryOp_writes imulTwosNegate rd src s
  exact ⟨t, _, (exec_imul_of_mode hmode rd src).trans ht, hw, imulTwosNegate_toNat_natAbs _ _⟩

/-- Settles O33: the two results are the two byte functions of the same operands. -/
theorem imulModesDivergeExactly : Obligations.ImulModesDivergeExactly := by
  intro rd src s
  obtain ⟨t, ht, hreg : t.reg rd = imulSignBitOr _ _⟩ := exec_imul_with_mode .signBitOr rd src s
  obtain ⟨u, hu, hreg' : u.reg rd = imulTwosNegate _ _⟩ := exec_imul_with_mode .twosNegate rd src s
  refine ⟨t, u, ht, hu, ?_, fun hne => ?_⟩
  · rw [hreg, hreg', imulSignBitOr_ne_imulTwosNegate_iff]
  · rw [hreg, hreg', imulSignBitOr_ne_imulTwosNegate_iff] at hne
    obtain ⟨hsign, h0⟩ := hne
    rw [hreg, hreg']
    exact ⟨imulSignBitOr_eq_0x80 hsign (s8_mul_s8_emod_128 h0), imulTwosNegate_eq_0x00 h0⟩

/-- Settles O26: the binary template with `addByte`. -/
theorem addWraps : Obligations.AddWraps := by
  intro rd src s
  rw [exec_add, ← addByte_toNat]
  exact binaryOp_writes addByte rd src s

end Sys2Proof.Proofs
end

section
/-! SUPPORT. Proofs of the statement about AND, OR and XOR (spec/44_logic.md). -/

namespace Sys2Proof.Proofs

open Sys2Proof.Machine Sys2Proof.Safety

/-- Where a byte function is a function of the two unsigned readings, the binary template writes that function's value. -/
theorem binaryOp_writes_of_toNat {f : Byte → Byte → Byte} {g : Nat → Nat → Nat}
    (hf : ∀ wv opv, (f wv opv).toNat = g wv.toNat opv.toNat) (rd : Reg) (src : Operand) (s : State) :
    ∃ t, binaryOp f rd src s = .next t ∧ WritesRegister s t rd (g (s.reg rd).toNat (s.operandValue src).toNat) := by
  rw [← hf]
  exact binaryOp_writes f rd src s

/-- Settles O34: a bitwise operation on bytes is the same operation on their unsigned readings. -/
theorem logicIsBitwise : Obligations.LogicIsBitwise := by
  intro rd src s
  rw [exec_and, exec_or, exec_xor]
  exact ⟨binaryOp_writes_of_toNat BitVec.toNat_and rd src s, binaryOp_writes_of_toNat BitVec.toNat_or rd src s,
    binaryOp_writes_of_toNat BitVec.toNat_xor rd src s⟩

end Sys2Proof.Proofs
end

section
/-! SUPPORT. Proofs of the statements about SHL and SHR (spec/45_shift.md). -/

namespace Sys2Proof.Proofs

open Sys2Proof.Machine Sys2Proof.Safety

/-- Zero fill (R114): a shift right by at least 1 halves the unsigned reading at least once, which clears bit 7. -/
theorem shrByte_msb {ge8 : ShiftGe8} {wv n : Byte} (h : ge8 = .zero ∨ n.toNat < 8) (hn : 1 ≤ n.toNat) :
    (shrByte ge8 wv n).msb = false := by
  have hhalf : wv.toNat / 2 ^ n.toNat ≤ wv.toNat / 2 ^ 1 :=
    Nat.div_le_div_left (Nat.pow_le_pow_right (by decide) hn) (by decide)
  have hlt := wv.isLt
  rw [BitVec.msb_eq_false_iff_two_mul_lt, shrByte_toNat _ _ _ h]
  omega

/-- Settles O35: the binary template with `shlByte`, where the parameter or the amount selects the formula. -/
theorem shlByAmount : Obligations.ShlByAmount := by
  intro rd src s h
  rw [exec_shl, ← shlByte_toNat _ _ _ h]
  exact binaryOp_writes (shlByte s.params.shiftGe8) rd src s

/-- Settles O36: the binary template with `shrByte`, whose value has a clear bit 7 from `n = 1` on. -/
theorem shrByAmount : Obligations.ShrByAmount := by
  intro rd src s h
  obtain ⟨t, ht, hw⟩ := binaryOp_writes (shrByte s.params.shiftGe8) rd src s
  have hreg : t.reg rd = shrByte s.params.shiftGe8 (s.reg rd) (s.operandValue src) := BitVec.eq_of_toNat_eq hw.value
  refine ⟨t, ht, ?_, fun hn => ?_⟩
  · rwa [shrByte_toNat _ _ _ h] at hw
  · rw [hreg, shrByte_msb h hn]

/-- Settles O37: under `Zero` the two formulas vanish from `n = 8` on; under `Opaque` the written bytes are the free
values (log 12). -/
theorem shiftsByEightOrMore : Obligations.ShiftsByEightOrMore := by
  intro rd src s hn
  refine ⟨fun hzero => ?_, fun hopaque => ?_⟩
  · have hshl := shlByAmount rd src s (.inl hzero)
    obtain ⟨t, ht, hw, -⟩ := shrByAmount rd src s (.inl hzero)
    rw [shl_formula_ge8 _ _ hn] at hshl
    rw [shr_formula_ge8 _ _ (s.reg rd).isLt hn] at hw
    exact ⟨hshl, t, ht, hw⟩
  · rw [exec_shl, exec_shr, hopaque, ← shlByte_uninterpreted _ _ hn, ← shrByte_uninterpreted _ _ hn]
    exact ⟨binaryOp_writes (shlByte .uninterpreted) rd src s, binaryOp_writes (shrByte .uninterpreted) rd src s⟩

end Sys2Proof.Proofs
end

section
/-! SUPPORT. Proofs of the statements about the exception (spec/60_exceptions.md): a held fault and an illegal word, step by
step and along a run, and why an assembled program meets none. -/

namespace Sys2Proof.Proofs

open Sys2Proof.Machine Sys2Proof.Safety

/-! ### While a fault is held -/

/-- Starting any number of steps touches no field of the block (R27). -/
theorem sameBlock_iterate_beginStep (k : Nat) (s : State) : SameBlock s (State.beginStep^[k] s) := by
  induction k with
  | zero => exact ⟨rfl, rfl, rfl, rfl, rfl⟩
  | succ k ih =>
    rw [Function.iterate_succ_apply']
    exact ih

/-- While a fault is held and no reset is pending, a run only uses up the samples (R122). -/
theorem run_held (k : Nat) {s : State} (hf : s.fault = true) (hin : ∀ p ∈ s.inputs, p.rst = false) :
    run k s = .next (State.beginStep^[k] s) := by
  induction k generalizing s with
  | zero => rfl
  | succ k ih =>
    have hstep := step_held (State.sample_rst_false s hin) hf
    rw [run_succ_of_step k s _ hstep, Function.iterate_succ_apply]
    exact ih hf fun p hp => hin p (List.mem_of_mem_tail hp)

/-- Settles O6: each step of the run is a bare `beginStep`, which clears the outputs; a reset clears the fault. -/
theorem heldFaultFreezesTheBlock : Obligations.HeldFaultFreezesTheBlock := by
  refine ⟨fun k s hf hin => ⟨_, run_held k hf hin, sameBlock_iterate_beginStep k s, fun hk => ?_⟩,
    fun s _ hr => ⟨_, step_reset hr, rfl⟩⟩
  obtain ⟨j, rfl⟩ := Nat.exists_eq_succ_of_ne_zero hk.ne'
  rw [Function.iterate_succ_apply']
  exact ⟨rfl, rfl⟩

/-! ### One step -/

/-- Settles O7: an idle step is a bare `beginStep`. -/
theorem idleStepChangesNothing : Obligations.IdleStepChangesNothing :=
  fun _ hr hv => ⟨_, step_idle hr hv, ⟨rfl, rfl, rfl, rfl, rfl⟩, rfl, rfl⟩

/-- Settles O8: the step takes the exception and does nothing else; the illegal words of the default parameters are those
from 13 * 2048 on (O44). -/
theorem illegalWordRaisesIllegalInstruction : Obligations.IllegalWordRaisesIllegalInstruction := by
  refine ⟨fun s hr hv hf hd => ?_, fun e => ?_, fun w hfit => ?_⟩
  · exact ⟨_, step_illegal hr hf hv hd, rfl, rfl, rfl, rfl, rfl, rfl, rfl, rfl⟩
  · cases e with
    | illegalInstruction w pc => rfl
  · obtain ⟨htruncate5, _⟩ := illegalWordsAreExactlyTheOtherFields
    obtain ⟨hillegal, hlegal⟩ := htruncate5 w hfit
    refine ⟨fun hd => ?_, fun h => hillegal (by omega)⟩
    by_contra hlow
    obtain ⟨i, hi⟩ := hlegal (by omega)
    cases hd.symm.trans hi

/-! ### Runs -/

/-- Settles O51: the legal words up to `k` are executed (`run_legal_words`), the word at `k` is illegal, and from then on
the fault is held (`run_held`). -/
theorem runStopsAtFirstIllegalWord : Obligations.RunStopsAtFirstIllegalWord := by
  intro s k w hs hf hle hw hd hl
  obtain ⟨hlt, _⟩ := List.getElem?_eq_some_iff.mp hw
  obtain ⟨u, hu, ⟨hin, _⟩, hfu, hpc, hcycles, hprog, hparams⟩ :=
    run_legal_words (k - s.pc) hs hf (by omega) fun j v hj hjk => hl j v hj (by omega)
  have hpck : u.pc = k := by omega
  have hstep : step u = .next (u.beginStep.takeException (.illegalInstruction w u.pc)) :=
    (sequencedStepRunsDecodedWord u w hin hfu (by rw [hprog, hpck, hw])).1 (by rw [hparams, hd])
  have ht := (run_add (k - s.pc) 1 s u hu).trans (run_succ_of_step 0 u _ hstep)
  refine ⟨u, _, hu, hfu, hpck, hcycles, ht, rfl, by simp [hpck], rfl, rfl, rfl, hpck, fun n => ?_⟩
  exact ⟨_, (run_add _ n s _ ht).trans (run_held n rfl (by simp [hin])), sameBlock_iterate_beginStep n _⟩

/-! ### Assembled programs -/

/-- A record stands for an instruction exactly where its operand is the one its arity asks for (R48, R78). -/
theorem isSome_toInstr (r : InstrRecord) : r.toInstr.isSome = r.wf := by
  obtain ⟨op, rd, operand⟩ := r
  cases op <;> cases operand <;> rfl

/-- No parsed record is lost on the way to an instruction (R68). -/
theorem length_filterMap_toInstr_of_parse {ov : LiteralOverflow} {text : List Char} {rs : List InstrRecord}
    (h : parse ov text = .ok rs) : (rs.filterMap InstrRecord.toInstr).length = rs.length := by
  rw [List.length_filterMap_eq_countP, List.countP_eq_length]
  intro r hr
  obtain ⟨l, _, hl⟩ := exists_line_of_mem_parse h hr
  exact (isSome_toInstr r).trans (wf_of_parseLine hl)

/-- The assembler's words are the encodings of the instructions it parsed. -/
theorem assemble_eq_ok {ov : LiteralOverflow} {m : EncMode} {map : OpcodeMap} {text : List Char} {ws : List Word}
    (h : assemble ov m map text = .ok ws) :
    ∃ rs, parse ov text = .ok rs ∧ ws = (rs.filterMap InstrRecord.toInstr).map (encode m map) := by
  rw [assemble] at h
  split at h
  · cases h
  · next rs hrs => exact ⟨rs, hrs, (Except.ok.inj h).symm⟩

/-- Every encoded instruction is legal (O41), so a program of them runs to completion from reset (O50). -/
theorem run_encoded_program {p : Params} {m : EncMode} (hm : p.enc = .mode m) (hd : codesDistinct m p.map = true)
    (is : List Instr) :
    ∃ t, run is.length (startRun p (is.map (encode m p.map))) = .next t ∧ Completed t ∧ t.cycles = is.length := by
  have hlegal : ∀ w ∈ is.map (encode m p.map), Legal p w := by
    intro w hw
    obtain ⟨i, _, rfl⟩ := List.mem_map.mp hw
    exact ⟨i, decodeEncodeRoundTrip p m hm hd i⟩
  simpa [startRun, State.reset] using
    legalRunCompletes (startRun p (is.map (encode m p.map))) ⟨rfl, Nat.zero_le _⟩ rfl hlegal

/-- Settles O59: the words are encoded instructions, one for each parsed record. -/
theorem assembledProgramCompletes : Obligations.AssembledProgramCompletes := by
  intro p m ov text ws hm hd h
  obtain ⟨rs, hrs, rfl⟩ := assemble_eq_ok h
  obtain ⟨t, ht, hdone, hcycles⟩ := run_encoded_program hm hd (rs.filterMap InstrRecord.toInstr)
  have hlen := length_filterMap_toInstr_of_parse hrs
  exact ⟨t, rs, hrs, (List.length_map _).trans hlen, by rwa [List.length_map], hdone, hcycles.trans hlen⟩

end Sys2Proof.Proofs
end

section
/-! SUPPORT. Proofs of the statements about reset and hazards (spec/70_reset_and_hazards.md): what IMUL gives of a value and
itself, and what a reset step and a launch leave. -/

namespace Sys2Proof.Proofs

open Sys2Proof.Machine Sys2Proof.Safety

/-! ### The same register as destination and operand -/

/-- With `rs = rd` both operands of the binary template are the register's value before the write (R82, R83). -/
theorem binaryOp_same_register_result (f : Byte → Byte → Byte) (r : Reg) (s : State) :
    ∃ t, binaryOp f r (.reg r) s = .next t ∧ t.reg r = f (s.reg r) (s.reg r) :=
  binaryOp_result f r (.reg r) s

/-- The signs agree, so the two modes of IMUL do too (R108). -/
theorem imulByte_self (mode : ImulMode) (v : Byte) : imulByte mode v v = imulSignBitOr v v := by
  have hmodes : imulSignBitOr v v = imulTwosNegate v v := by
    by_contra hne
    obtain ⟨hsign, _⟩ := (imulSignBitOr_ne_imulTwosNegate_iff v v).mp hne
    exact hsign rfl
  cases mode with
  | signBitOr => rfl
  | twosNegate => exact hmodes.symm

/-- Equal signs leave bit 7 clear, so IMUL of a value and itself is the low 7 bits of its square in either mode. -/
theorem imulByte_self_toNat (mode : ImulMode) (v : Byte) : (imulByte mode v v).toNat = v.toNat * v.toNat % 128 := by
  rw [imulByte_self, imulSignBitOr_toNat, Bool.xor_self, Bool.toNat_false, Nat.zero_mul, Nat.zero_add, ← Nat.mul_mod]

/-- Settles O39: each result is the instruction's byte function at the old value twice. -/
theorem sameRegisterOperandsUseOldValue : Obligations.SameRegisterOperandsUseOldValue := by
  intro r s
  refine ⟨?add, ?sub, ?xor, ?imul, ?shl⟩
  case add =>
    obtain ⟨t, ht, hreg⟩ := binaryOp_same_register_result addByte r s
    refine ⟨t, ht, ?_⟩
    rw [hreg, addByte_toNat, Nat.two_mul]
  case sub =>
    obtain ⟨t, ht, hreg⟩ := binaryOp_same_register_result subByte r s
    exact ⟨t, ht, hreg.trans ((subByte_eq_sub _ _).trans (BitVec.sub_self _))⟩
  case xor =>
    obtain ⟨t, ht, hreg⟩ := binaryOp_same_register_result (fun wv opv => wv ^^^ opv) r s
    exact ⟨t, ht, hreg.trans BitVec.xor_self⟩
  case imul =>
    obtain ⟨t, ht, hreg⟩ := binaryOp_same_register_result (imulByte s.params.imul) r s
    refine ⟨t, ht, ?_⟩
    rw [hreg, imulByte_self_toNat]
  case shl =>
    obtain ⟨t, ht, hreg⟩ := binaryOp_same_register_result (shlByte s.params.shiftGe8) r s
    refine ⟨t, ht, fun h => ?_, fun hopaque h8 => ?_⟩
    · rw [hreg, shlByte_toNat _ _ _ h]
    · rw [hreg, hopaque, shlByte_uninterpreted _ _ h8]

/-! ### Reset -/

/-- Settles O2: the reset clears the block, and the start of the step has cleared the outputs. -/
theorem resetStepZeroesTheBlock : Obligations.ResetStepZeroesTheBlock :=
  fun s hr => ⟨_, step_reset hr, State.reg_resetBlock s.beginStep, rfl, rfl, rfl, rfl, rfl, rfl⟩

/-- A launch asserts `rst` (R79), so the step after it resets the block. -/
theorem step_launch (s : State) (P : List Word) : step (launch s P) = .next (launch s P).beginStep.resetBlock :=
  step_reset rfl

/-- Settles O49: the reset step of the launch leaves the five fields at their values of R28, uses up its one sample (log 3)
and keeps the program and the parameters (logs 2 and 20); no output shows, so the invariant holds. -/
theorem launchStartsFresh : Obligations.LaunchStartsFresh :=
  fun s P => ⟨_, step_launch s P, ⟨rfl, rfl, rfl, rfl, rfl⟩, rfl, rfl, ⟨rfl, Nat.zero_le _⟩,
    consistent_of_no_outputs rfl rfl rfl⟩

end Sys2Proof.Proofs
end
